-- ==== Sys2Proof/Word.lean ====
section
/-! DEFINITION. The widths of the machine's values (spec/00_scope.md R6, R11). -/

namespace Sys2Proof

/-- A byte: 8 bits, values 0..255 (R8, R11, parameter BYTE_W of R6). -/
abbrev Byte := BitVec 8

/-- A 16-bit unsigned value: the width of `expected_len` and `count` (R11, parameter LEN_W of R6). -/
abbrev Half := BitVec 16

end Sys2Proof
end

