-- ==== Sys2Proof/Config.lean ====
section
/-! DEFINITION. The configuration record of one instance (R6, R29) and the constants the frame format fixes (R60).
The checks and sizes computed from them (R7, R67) stand in Machine/Params.lean. -/

namespace Sys2Proof

/-- A field descriptor (R66): byte offset inside the payload, width in bytes, and whether the pattern is signed. -/
structure FieldDesc where
  name   : String
  offset : Nat
  width  : Nat
  signed : Bool
deriving DecidableEq, Repr

/-- A field layout: its descriptors in the layout's order (R66, R126). -/
abbrev Layout := List FieldDesc

/-- One entry of LAYOUTS: the (class, id) key and its layout (R6). -/
structure LayoutEntry where
  cls    : Byte
  id     : Byte
  layout : Layout
deriving DecidableEq, Repr

/-- `Cfg` (R6): the open parameters of one instance, fixed at construction. SYNC1, SYNC2 and the sizes are constants below. -/
structure Cfg where
  /-- MAX_PAYLOAD, 0..65535, OPEN (D2). -/
  maxPayload : Nat
  /-- CK_MOD, 2..256, documented value 255 (R92, D1). -/
  ckMod      : Nat
  /-- LAYOUTS, OPEN (D10): a finite map as its list of entries. -/
  layouts    : List LayoutEntry
deriving DecidableEq, Repr

/-- SYNC1, hard-wired (R6, R29, R62). -/
def sync1 : Byte := 0xB5
/-- SYNC2, hard-wired (R6, R29, R62). -/
def sync2 : Byte := 0x62
/-- OVERHEAD = 2 sync + 4 header + 2 checksum bytes (R6, R61). -/
def overhead : Nat := 8

/-- The default LAYOUTS of R128 (PRESUMED: the spec takes it from general knowledge, log 5). -/
def Config.defaultLayouts : List LayoutEntry :=
  [{ cls := 0x01, id := 0x02, layout :=
      [{ name := "iTOW",   offset := 0,  width := 4, signed := false },
       { name := "lon",    offset := 4,  width := 4, signed := true },
       { name := "lat",    offset := 8,  width := 4, signed := true },
       { name := "height", offset := 12, width := 4, signed := true },
       { name := "hMSL",   offset := 16, width := 4, signed := true },
       { name := "hAcc",   offset := 20, width := 4, signed := false },
       { name := "vAcc",   offset := 24, width := 4, signed := false }] }]

/-- The instance `State.reset` is created with (DESIGN CHOICE, logs 2 to 5): the one spec/95_test_vectors.md names, with
the documented modulus 255. No statement about the machine rests on it: statements hold for every `Cfg`. -/
def Config.reference : Cfg :=
  { maxPayload := 64, ckMod := 255, layouts := Config.defaultLayouts }

end Sys2Proof
end

