-- ==== Sys2Proof/Machine/ChecksumEngine.lean ====
section
/-! DEFINITION. The Checksum Engine (R90, R93) and the frame construction that mirrors the decoder (R80, R150). -/

namespace Sys2Proof.Machine

/-- One byte of the rolling checksum (R90): `a` first, then `b` with the new `a`. Sums are naturals, so nothing wraps
before the `mod` (R11). -/
def ckStep (ckMod : Nat) (acc : Byte × Byte) (x : Byte) : Byte × Byte :=
  let a := (acc.1.toNat + x.toNat) % ckMod
  let b := (acc.2.toNat + a) % ckMod
  (BitVec.ofNat 8 a, BitVec.ofNat 8 b)

/-- `checksum(bytes) -> (a, b)` from `a = b = 0`, in stream order (R90). -/
def checksum (ckMod : Nat) (bs : List Byte) : Byte × Byte :=
  bs.foldl (ckStep ckMod) (0, 0)

/-- `verify(bytes, ck_a, ck_b)`: recompute and compare both bytes (R93). -/
def verify (ckMod : Nat) (bs : List Byte) (ckA ckB : Byte) : Bool :=
  let c := checksum ckMod bs
  c.1 == ckA && c.2 == ckB

/-- The bytes a frame's checksum covers: class, id, lenLo, lenHi, payload (R60, R65, R150). -/
def frameBody (cls id : Byte) (p : List Byte) : List Byte :=
  [cls, id, BitVec.ofNat 8 (p.length &&& 0xFF), BitVec.ofNat 8 (p.length >>> 8)] ++ p

/-- `FRAME_CK(cls, id, p, a, b)`: a frame with the given checksum bytes (R80). -/
def frameCk (cls id : Byte) (p : List Byte) (a b : Byte) : List Byte :=
  [sync1, sync2] ++ frameBody cls id p ++ [a, b]

/-- `FRAME(cls, id, p)` (R150). -/
def frame (ckMod : Nat) (cls id : Byte) (p : List Byte) : List Byte :=
  let c := checksum ckMod (frameBody cls id p)
  frameCk cls id p c.1 c.2

end Sys2Proof.Machine
end

