-- ==== Sys2Proof/Machine/Params.lean ====
section
/-! DEFINITION. Sizes and checks computed from the configuration: MAX_FRAME, `min_len`, the layout lookup, and the
well-formedness of a `Cfg` (R6, R7, R67, R124). -/

namespace Sys2Proof

/-- MAX_FRAME = MAX_PAYLOAD + 8 (R6). -/
def Cfg.maxFrame (c : Cfg) : Nat := c.maxPayload + overhead

/-- `min_len(layout)`: the largest offset + width, 0 for a layout with no fields (R67). -/
def minLen : Layout → Nat
  | [] => 0
  | f :: fs => max (f.offset + f.width) (minLen fs)

/-- The layout of a (class, id) key, if it is a key of LAYOUTS (R124). -/
def Cfg.lookup (c : Cfg) (cls id : Byte) : Option Layout :=
  (c.layouts.find? fun e => e.cls == cls && e.id == id).map LayoutEntry.layout

/-- One descriptor is legal: 1 <= width <= 8 and offset + width <= 65535 (R7). -/
def FieldDesc.wf (f : FieldDesc) : Bool :=
  decide (1 ≤ f.width) && decide (f.width ≤ 8) && decide (f.offset + f.width ≤ 65535)

/-- A layout is legal: every field is, and field names are distinct (R7). -/
def layoutWf (l : Layout) : Bool :=
  l.all FieldDesc.wf && decide ((l.map FieldDesc.name).Nodup)

/-- `Cfg` is well formed (R7). -/
def Cfg.wf (c : Cfg) : Bool :=
  decide (c.maxPayload ≤ 65535) && decide (2 ≤ c.ckMod) && decide (c.ckMod ≤ 256) &&
    decide ((c.layouts.map fun e => (e.cls, e.id)).Nodup) && c.layouts.all fun e => layoutWf e.layout

end Sys2Proof
end

