-- ==== Sys2Proof/Syntax.lean ====
section
/-! DEFINITION. The operations of R70 (one constructor per row of spec/opcode_table.json) and the events that deliver
them (R144). -/

namespace Sys2Proof

/-- The operation list of R70. A step operation whose row leaves its byte open carries the byte `x` it consumes; a row
that fixes its byte (match with mask 0xFF) carries none. -/
inductive Instr where
  /-- SS1_HIT, R100: the byte is 0xB5. -/
  | ss1Hit
  /-- SS1_SKIP, R101. -/
  | ss1Skip (x : Byte)
  /-- SS2_HIT, R102: the byte is 0x62. -/
  | ss2Hit
  /-- SS2_RESTART, R103: the byte is 0xB5. -/
  | ss2Restart
  /-- SS2_MISS, R104. -/
  | ss2Miss (x : Byte)
  /-- HDR_ACC, R110. -/
  | hdrAcc (x : Byte)
  /-- HDR_LEN, R112. -/
  | hdrLen (x : Byte)
  /-- HDR_LEN_ZERO, R113: the byte is 0x00. -/
  | hdrLenZero
  /-- HDR_OVERSIZE, R114. -/
  | hdrOversize (x : Byte)
  /-- PAY_ACC, R115. -/
  | payAcc (x : Byte)
  /-- PAY_LAST, R116. -/
  | payLast (x : Byte)
  /-- CK_FIRST, R120. -/
  | ckFirst (x : Byte)
  /-- CK_FAIL, R122. -/
  | ckFail (x : Byte)
  /-- CK_OK_DECODED, R123. -/
  | ckOkDecoded (x : Byte)
  /-- CK_OK_UNKNOWN, R125. -/
  | ckOkUnknown (x : Byte)
  /-- IDLE, R141: a step without a byte. -/
  | idle
  /-- RST, R191: the hard reset. -/
  | rst
  /-- CHECKSUM, R90. -/
  | checksum (bytes : List Byte)
  /-- VERIFY, R93. -/
  | verify (bytes : List Byte) (ckA ckB : Byte)
  /-- LE16, R64. -/
  | le16 (lenLo lenHi : Byte)
  /-- FIELD, R66. -/
  | field (payload : List Byte) (offset width : Nat) (signed : Bool)
  /-- FRAME, R150. -/
  | frame (cls id : Byte) (p : List Byte)
deriving DecidableEq, Repr

/-- The input ports of one cycle (R144). -/
structure PortsIn where
  rst     : Bool
  inValid : Bool
  inByte  : Byte
deriving DecidableEq, Repr

/-- A call of a pure function or of FRAME from outside the block (R70 rows 18 to 22: no input byte selects them). -/
inductive FnCall where
  | checksum (bytes : List Byte)
  | verify (bytes : List Byte) (ckA ckB : Byte)
  | le16 (lenLo lenHi : Byte)
  | field (payload : List Byte) (offset width : Nat) (signed : Bool)
  | frame (cls id : Byte) (p : List Byte)
deriving DecidableEq, Repr

/-- What the outside does to the instance at one step boundary: one cycle of the ports, or a call (log 1, log 13). -/
inductive Event where
  | cycle (p : PortsIn)
  | call (f : FnCall)
deriving DecidableEq, Repr

/-- A cycle that delivers the byte `x`. -/
def Event.byte (x : Byte) : Event := .cycle { rst := false, inValid := true, inByte := x }
/-- A poll that gets no byte, written `--` in a stream listing (R79, R141). -/
def Event.idle : Event := .cycle { rst := false, inValid := false, inByte := 0 }
/-- A cycle with `rst` asserted and no byte (R191). -/
def Event.reset : Event := .cycle { rst := true, inValid := false, inByte := 0 }

/-- The instruction a call stands for. -/
def FnCall.instr : FnCall → Instr
  | .checksum bs => .checksum bs
  | .verify bs a b => .verify bs a b
  | .le16 lo hi => .le16 lo hi
  | .field p o w sg => .field p o w sg
  | .frame c i p => .frame c i p

end Sys2Proof
end

