-- ==== Sys2Proof/Machine/State.lean ====
section
/-! DEFINITION. The state of one instance (R20), what a step puts on the outputs (R34, R140, R146), the reasons a step
can stop (R183), and the state right after reset (R30, R37). -/

namespace Sys2Proof.Machine

/-- `phase` (R21). -/
inductive Phase where
  | seekSync1
  | seekSync2
  | readHeader
  | readPayload
  | readChecksum
deriving DecidableEq, Repr

/-- The scratch buffer as (index, byte) cells (R22, R32, log 16). Canonical form: the indices are 0, 1, 2, ... in order
(`Memory.wf` in Machine/Ops.lean), so the number of cells is the fill index. An unlisted index reads as no value. -/
abbrev Memory := List Host.Cell

/-- The Synchronizer State: exactly the four elements of R20. -/
structure Sync where
  phase       : Phase
  buf         : Memory
  expectedLen : Half
  count       : Half
deriving DecidableEq, Repr

/-- `Emission`: one of three record kinds (R34). Pairs are (first, second) = (a, b) (R132). -/
inductive Emission where
  | decodedMessage (cls id : Byte) (fields : List (String × Int))
  | unknownMessage (cls id : Byte) (rawPayload : List Byte)
  | checksumError (cls id : Byte) (expected actual : Byte × Byte)
deriving DecidableEq, Repr

/-- The closed error taxonomy (R160). `oversizePayload` holds the `info` triple of R114. -/
inductive Condition where
  | syncLost
  | oversizePayload (cls id : Byte) (length : Half)
  | checksumMismatch
  | unknownMessageType
deriving DecidableEq, Repr

/-- The result of a pure function (R90, R93, R64, R66, R150). -/
inductive Value where
  | pair (a b : Byte)
  | bool (v : Bool)
  | nat (n : Nat)
  | int (i : Int)
  | bytes (bs : List Byte)
deriving DecidableEq, Repr

/-- What one step presents at its outputs, and only that step (R146, log 7). -/
structure Outputs where
  /-- The step's emission (R140). -/
  emission     : Option Emission
  /-- `out_len`: L of the frame whose record is presented (R144); `none` when there is no emission. -/
  outLen       : Option Half
  /-- The `diag_oversize` strobe (R186). -/
  diagOversize : Bool
  /-- Which condition of R160 the step raised (R161, log 8). A diagnostic of the model: no port shows it. -/
  condition    : Option Condition
  /-- The result of a pure function called in this step (log 13). -/
  value        : Option Value
deriving DecidableEq, Repr

/-- Outputs of a step that presents nothing: emission none, strobe false (R37, R146). -/
def Outputs.quiet : Outputs :=
  { emission := none, outLen := none, diagOversize := false, condition := none, value := none }

/-- One instance: the four elements of R20 in `sync`, beside the model's own fields: the instance's constants (R29, log 2),
the events the caller has still to deliver (R36, log 1), and what the last step presented (log 7). -/
structure State where
  sync  : Sync
  cfg   : Cfg
  input : List Event
  out   : Outputs
deriving DecidableEq, Repr

/-- The step function never faults (R140, R183): there is no fault to raise. -/
inductive Fault where
deriving DecidableEq, Repr

/-- Why a step or a meaning refuses. Each is SAFE: the spec gives no effect there, and no state that meets R25 under a
well-formed `Cfg` reaches any of them but the two operand ranges of the functions. -/
inductive Refusal where
  /-- Raised by `exec` for an instruction without a meaning (none in this model). Safe. -/
  | notModelled (mnemonic : String)
  /-- Raised by `step` and `create`: "a model refuses an ill-formed `Cfg`" (R7, R183). Safe. -/
  | illFormedCfg
  /-- Raised by the decoder when a byte arrives in a state that breaks R25 (R183, U4). Safe. -/
  | brokenInvariant
  /-- Raised by a step operation run where its own Operands line does not hold, that is where R68 does not select it (log 10). Safe. -/
  | operandsNotMet
  /-- Raised by a buffer access outside `0 .. |buf|-1`, or an append at |buf| = MAX_FRAME (R9, R49, U7). Safe. -/
  | bufferBounds
  /-- Raised by FIELD and `decode_fields` outside 1 <= width <= 8 or beyond the payload (R66, R126, log 14). Safe. -/
  | fieldOperands
  /-- Raised by FRAME when |p| > 65535 (R150, log 14). Safe. -/
  | frameOperands
deriving DecidableEq, Repr

/-- RESET_STATE (R30, R37). -/
def Sync.reset : Sync :=
  { phase := .seekSync1, buf := [], expectedLen := 0, count := 0 }

/-- An instance right after its creation with the configuration `c` (R30, R190). -/
def State.resetWith (c : Cfg) : State :=
  { sync := Sync.reset, cfg := c, input := [], out := Outputs.quiet }

/-- The machine right after reset, created with the reference configuration (log 2). -/
def State.reset : State := State.resetWith Config.reference

end Sys2Proof.Machine
end

