-- ==== Sys2Proof/Machine/Ops.lean ====
section
/-! DEFINITION. The named operations over the scratch buffer and the state: reads and appends (R10, R22, R49), the ends
of a step, and taking a condition by `ResetToSeek` (R170). -/

namespace Sys2Proof.Machine

/-- The buffer's bytes in stream order. -/
def Memory.bytes (m : Memory) : List Byte := m.map Prod.snd

/-- The cells of a byte sequence stored from index `a` on. -/
def Memory.ofBytesFrom : Nat → List Byte → Memory
  | _, [] => []
  | a, b :: bs => (a, b) :: Memory.ofBytesFrom (a + 1) bs

/-- The buffer that holds a byte sequence from index 0 on (R22). -/
def Memory.ofBytes (bs : List Byte) : Memory := Memory.ofBytesFrom 0 bs

/-- Canonical from index `a`: the cells' indices are a, a+1, a+2, ... -/
def Memory.wfFrom : Nat → Memory → Bool
  | _, [] => true
  | a, c :: m => c.1 == a && Memory.wfFrom (a + 1) m

/-- The canonical form of the buffer: indices 0, 1, ..., |buf|-1 in order (R22). -/
def Memory.wf (m : Memory) : Bool := Memory.wfFrom 0 m

/-- The byte at an index; no value at an index the buffer does not hold (R9, R49). -/
def Memory.read : Memory → Nat → Option Byte
  | [], _ => none
  | c :: m, a => if c.1 = a then some c.2 else Memory.read m a

/-- The `n` bytes at indices `a .. a+n-1`, if the buffer holds all of them (R45, R48). -/
def Memory.readN (m : Memory) (a : Nat) : Nat → Option (List Byte)
  | 0 => some []
  | n + 1 =>
    match Memory.read m a, Memory.readN m (a + 1) n with
    | some b, some bs => some (b :: bs)
    | _, _ => none

/-- `BufAppend(x)`: one byte at index |buf|, within the capacity MAX_FRAME (R10, R22, R49). -/
def Memory.append (cap : Nat) (m : Memory) (x : Byte) : Option Memory :=
  if m.length < cap then some (m ++ [(m.length, x)]) else none

/-- Creation of an instance (R190, R193): an ill-formed `Cfg` is refused (R7). -/
def create (c : Cfg) : Host.Outcome State Fault Refusal :=
  if c.wf then .next (State.resetWith c) else .refused .illFormedCfg

/-- A meaning runs where its Operands line holds; elsewhere the spec gives it no effect (R68, log 10). -/
def whenOperands (holds : Bool) (o : Host.Outcome State Fault Refusal) : Host.Outcome State Fault Refusal :=
  if holds then o else .refused .operandsNotMet

/-- End a step that presents nothing, with the four elements as given. -/
def quietly (s : State) (sy : Sync) : State := { s with sync := sy, out := Outputs.quiet }

/-- Append the input byte and end the step quietly; `upd` gives the other elements from the new buffer. -/
def storing (s : State) (x : Byte) (upd : Sync → Sync) : Host.Outcome State Fault Refusal :=
  match Memory.append s.cfg.maxFrame s.sync.buf x with
  | none => .refused .bufferBounds
  | some m => .next (quietly s (upd { s.sync with buf := m }))

/-- Note a condition that changes no element and is not surfaced (the silent forms of `SyncLost`, R161, R162). -/
def noting (c : Condition) (s : State) : State := { s with out := { s.out with condition := some c } }

/-- `diag_oversize` is raised by `OversizePayload` and by nothing else (R186). -/
def Condition.strobe : Option Condition → Bool
  | some (.oversizePayload _ _ _) => true
  | _ => false

/-- Condition codes (R161): 0 is "no condition". -/
def Condition.code : Option Condition → BitVec 3
  | none => 0
  | some .unknownMessageType => 1
  | some .checksumMismatch => 2
  | some (.oversizePayload _ _ _) => 3
  | some .syncLost => 4

/-- `ResetToSeek`: the one state change by which every condition is handled; nothing is saved (R170). -/
def resetToSeek (s : State) : State := { s with sync := Sync.reset }

/-- The end of a frame attempt: the step's outputs, then the unconditional reset (R129, R170). The record's `out_len` is
L of the frame (R144); the strobe follows the condition (R186). -/
def endAttempt (em : Option Emission) (c : Option Condition) (s : State) : State :=
  { resetToSeek s with
    out := { emission := em, outLen := em.map fun _ => s.sync.expectedLen, diagOversize := Condition.strobe c,
             condition := c, value := none } }

/-- `raise C(info)` (R10, R170): the step ends by `ResetToSeek`, with the emission where the rule says so. There is no
return operation: the next byte is read in `SeekSync1` (R172). -/
def raise (c : Condition) (em : Option Emission) (s : State) : State := endAttempt em (some c) s

/-- End a step that only delivers the value of a pure function (log 13): no element changes. -/
def delivering (v : Value) (s : State) : State := { s with out := { Outputs.quiet with value := some v } }

end Sys2Proof.Machine
end

