-- ==== Sys2Proof/Machine/Operands.lean ====
section
/-! DEFINITION. Operand forms: the length, the header bytes, the checksum span, the received pair (R64, R65, R121) and
field operands (R66, R126). -/

namespace Sys2Proof.Machine

/-- `lenLo | (lenHi << 8)` (R64, R82). -/
def le16 (lo hi : Byte) : Nat := lo.toNat ||| (hi.toNat <<< 8)

/-- Little-endian assembly: the byte at the lowest offset is the least significant (R41). -/
def leNat : List Byte → Nat
  | [] => 0
  | b :: bs => b.toNat + 2 ^ 8 * leNat bs

/-- `BufRead(addr, n)` (R10). -/
def bufRead (m : Memory) (addr n : Nat) : Option Nat := (Memory.readN m addr n).map leNat

/-- `sext_N(v)` (R8): two's complement (log 6). -/
def sext (n v : Nat) : Int := if v < 2 ^ (n - 1) then (v : Int) else (v : Int) - (2 : Int) ^ n

/-- The value of a field's raw pattern (R66). -/
def fieldValue (signed : Bool) (width u : Nat) : Int := if signed then sext (8 * width) u else (u : Int)

/-- The operand range of a field read: 1..8 bytes that stay inside the payload (R66, R126). -/
def fieldOperandsOk (payload : List Byte) (offset width : Nat) : Bool :=
  decide (1 ≤ width) && decide (width ≤ 8) && decide (offset + width ≤ payload.length)

/-- One field of a payload (R66). -/
def fieldOf (payload : List Byte) (offset width : Nat) (signed : Bool) : Option Int :=
  if fieldOperandsOk payload offset width then
    some (fieldValue signed width (leNat ((payload.drop offset).take width)))
  else none

/-- `decode_fields(layout, payload)`, in the layout's order (R126). -/
def decodeFields : Layout → List Byte → Option (List (String × Int))
  | [], _ => some []
  | f :: fs, p =>
    match fieldOf p f.offset f.width f.signed, decodeFields fs p with
    | some v, some vs => some ((f.name, v) :: vs)
    | _, _ => none

/-- `Lnew = buf[4] | (x << 8)` at the fourth header byte (R68, R111). -/
def lenNew (m : Memory) (x : Byte) : Option Nat := (Memory.read m 4).map fun lo => le16 lo x

/-- What the CK_B step reads of the buffer (R121). -/
structure CkView where
  cls     : Byte
  id      : Byte
  span    : List Byte
  payload : List Byte
  ckA     : Byte
deriving DecidableEq, Repr

/-- The operands of the CK_B step from the state before it (R65, R121): class and id at 2 and 3, the span at 2 .. 5+L,
the payload at 6 .. 5+L, CK_A at 6+L. -/
def ckView (s : Sync) : Option CkView :=
  let len := s.expectedLen.toNat
  match Memory.read s.buf 2, Memory.read s.buf 3, Memory.readN s.buf 2 (4 + len), Memory.readN s.buf 6 len,
      Memory.read s.buf (6 + len) with
  | some cls, some id, some span, some payload, some ckA =>
    some { cls := cls, id := id, span := span, payload := payload, ckA := ckA }
  | _, _, _, _, _ => none

end Sys2Proof.Machine
end

