-- ==== Sys2Proof/Machine/Flags.lean ====
section
/-! DEFINITION. The three conditions computed inside a step (R28); none is stored. -/

namespace Sys2Proof.Machine

/-- `ck_ok = verify(span, ck_a, ck_b)` with CK_B the arriving byte (R121). -/
def ckOk (c : Cfg) (v : CkView) (x : Byte) : Bool := verify c.ckMod v.span v.ckA x

/-- `oversize`: the declared length exceeds MAX_PAYLOAD, strictly (R111). -/
def oversize (c : Cfg) (len : Nat) : Bool := decide (c.maxPayload < len)

/-- The layout `known` selects: the key is in LAYOUTS and L >= min_len (R124). -/
def usableLayout (c : Cfg) (cls id : Byte) (len : Nat) : Option Layout :=
  match c.lookup cls id with
  | some l => if minLen l ≤ len then some l else none
  | none => none

/-- `known` (R124). -/
def known (c : Cfg) (cls id : Byte) (len : Nat) : Bool := (usableLayout c cls id len).isSome

end Sys2Proof.Machine
end

