-- ==== Sys2Proof/Machine/Invariant.lean ====
section
/-! DEFINITION. The state invariant of R25, as a check that can be evaluated. -/

namespace Sys2Proof.Machine

/-- The length the stored header declares: `lenLo | (lenHi << 8)` at indices 4 and 5 (R47, R64). -/
def declaredLen (bs : List Byte) : Option Nat :=
  match bs[4]?, bs[5]? with
  | some lo, some hi => some (le16 lo hi)
  | _, _ => none

/-- R25's table for the four elements under `c`: one line per phase. -/
def Sync.wf (c : Cfg) (s : Sync) : Bool :=
  let bs := Memory.bytes s.buf
  let len := s.expectedLen.toNat
  let cnt := s.count.toNat
  Memory.wf s.buf &&
    match s.phase with
    | .seekSync1 => decide (bs = [] ∧ len = 0 ∧ cnt = 0)
    | .seekSync2 => decide (bs = [sync1] ∧ len = 0 ∧ cnt = 0)
    | .readHeader =>
      decide (bs.take 2 = [sync1, sync2] ∧ bs.length = 2 + cnt ∧ len = 0 ∧ cnt ≤ 3)
    | .readPayload =>
      decide (bs.take 2 = [sync1, sync2] ∧ bs.length = 6 + cnt ∧ declaredLen bs = some len ∧
        1 ≤ len ∧ len ≤ c.maxPayload ∧ cnt < len)
    | .readChecksum =>
      decide (bs.take 2 = [sync1, sync2] ∧ bs.length = 6 + len + cnt ∧ declaredLen bs = some len ∧
        len ≤ c.maxPayload ∧ cnt ≤ 1)

/-- The invariant of the whole state: a well-formed `Cfg` (R7) and R25. -/
def State.wf (s : State) : Bool := s.cfg.wf && s.sync.wf s.cfg

end Sys2Proof.Machine
end

