-- ==== Sys2Proof/WellFormed.lean ====
section
/-! DEFINITION. The operand checks of an instruction that need no state: excluded bytes of a row (R71 `not`) and the
operand ranges of the functions (R66, R150). The state-dependent conditions of a row stand in Decode.lean. -/

namespace Sys2Proof

/-- `SS1_SKIP` excludes 0xB5 (R101); `SS2_MISS` excludes 0x62 and 0xB5 (R104); `FIELD` needs a width of 1..8 bytes that
stays inside the payload (R66, R126); `FRAME` needs |p| <= 65535 (R150). -/
def Instr.wellFormed : Instr → Bool
  | .ss1Hit => true
  | .ss1Skip x => x != sync1
  | .ss2Hit => true
  | .ss2Restart => true
  | .ss2Miss x => x != sync2 && x != sync1
  | .hdrAcc _ => true
  | .hdrLen _ => true
  | .hdrLenZero => true
  | .hdrOversize _ => true
  | .payAcc _ => true
  | .payLast _ => true
  | .ckFirst _ => true
  | .ckFail _ => true
  | .ckOkDecoded _ => true
  | .ckOkUnknown _ => true
  | .idle => true
  | .rst => true
  | .checksum _ => true
  | .verify _ _ _ => true
  | .le16 _ _ => true
  | .field p o w _ => decide (1 ≤ w) && decide (w ≤ 8) && decide (o + w ≤ p.length)
  | .frame _ _ p => decide (p.length ≤ 65535)

/-- An event is well formed when it delivers a byte, nothing, a reset, or a call with operands in range. -/
def Event.wellFormed : Event → Bool
  | .cycle _ => true
  | .call f => f.instr.wellFormed

end Sys2Proof
end

