-- ==== Sys2Proof/Decode.lean ====
section
/-! DEFINITION. The operation a byte selects under the state (R68), the encoder, and the table's rows (R71). The decode
of this machine depends on the state: the instruction word is one byte read under the current phase (R2). -/

namespace Sys2Proof

open Machine

/-- R68's table: the operation the byte `x` selects in `s`. Total: a state with no row (R24, R25 broken) or whose buffer
lacks a byte the row reads is rejected by name. -/
def decodeByte (s : State) (x : Byte) : Except Refusal Instr :=
  match s.sync.phase with
  | .seekSync1 => .ok (if x = sync1 then .ss1Hit else .ss1Skip x)
  | .seekSync2 => .ok (if x = sync2 then .ss2Hit else if x = sync1 then .ss2Restart else .ss2Miss x)
  | .readHeader =>
    if s.sync.count.toNat < 3 then .ok (.hdrAcc x)
    else if s.sync.count.toNat = 3 then
      match lenNew s.sync.buf x with
      | none => .error .bufferBounds
      | some len =>
        .ok (if oversize s.cfg len then .hdrOversize x else if len = 0 then .hdrLenZero else .hdrLen x)
    else .error .brokenInvariant
  | .readPayload =>
    if s.sync.count.toNat + 1 < s.sync.expectedLen.toNat then .ok (.payAcc x)
    else if s.sync.count.toNat + 1 = s.sync.expectedLen.toNat then .ok (.payLast x)
    else .error .brokenInvariant
  | .readChecksum =>
    if s.sync.count = 0 then .ok (.ckFirst x)
    else if s.sync.count = 1 then
      match ckView s.sync with
      | none => .error .bufferBounds
      | some v =>
        .ok (if !ckOk s.cfg v x then .ckFail x
             else if known s.cfg v.cls v.id s.sync.expectedLen.toNat then .ckOkDecoded x
             else .ckOkUnknown x)
    else .error .brokenInvariant

/-- The operation of one event. `rst` wins over a byte, which is dropped (R169, R191); no byte is IDLE (R141); a byte
in a state that breaks R25 is refused (R183, log 9); a call is its own instruction (log 13). -/
def decodeEvent (s : State) : Event → Except Refusal Instr
  | .cycle p =>
    if p.rst then .ok .rst
    else if p.inValid then
      if s.sync.wf s.cfg then decodeByte s p.inByte else .error .brokenInvariant
    else .ok .idle
  | .call f => .ok f.instr

/-- The instruction words of an instruction: the one byte of a step operation, none for the others (R70, R71). -/
def encode : Instr → List Byte
  | .ss1Hit => [sync1]
  | .ss1Skip x => [x]
  | .ss2Hit => [sync2]
  | .ss2Restart => [sync1]
  | .ss2Miss x => [x]
  | .hdrAcc x => [x]
  | .hdrLen x => [x]
  | .hdrLenZero => [0x00]
  | .hdrOversize x => [x]
  | .payAcc x => [x]
  | .payLast x => [x]
  | .ckFirst x => [x]
  | .ckFail x => [x]
  | .ckOkDecoded x => [x]
  | .ckOkUnknown x => [x]
  | .idle => []
  | .rst => []
  | .checksum _ => []
  | .verify _ _ _ => []
  | .le16 _ _ => []
  | .field _ _ _ _ => []
  | .frame _ _ _ => []

/-- The event that delivers an instruction: its byte, a poll, a reset, or a call. -/
def encodeEvent : Instr → Event
  | .ss1Hit => .byte sync1
  | .ss1Skip x => .byte x
  | .ss2Hit => .byte sync2
  | .ss2Restart => .byte sync1
  | .ss2Miss x => .byte x
  | .hdrAcc x => .byte x
  | .hdrLen x => .byte x
  | .hdrLenZero => .byte 0x00
  | .hdrOversize x => .byte x
  | .payAcc x => .byte x
  | .payLast x => .byte x
  | .ckFirst x => .byte x
  | .ckFail x => .byte x
  | .ckOkDecoded x => .byte x
  | .ckOkUnknown x => .byte x
  | .idle => .idle
  | .rst => .reset
  | .checksum bs => .call (.checksum bs)
  | .verify bs a b => .call (.verify bs a b)
  | .le16 lo hi => .call (.le16 lo hi)
  | .field p o w sg => .call (.field p o w sg)
  | .frame c i p => .call (.frame c i p)

/-- `count` as a row of the table asks for it (R71). -/
inductive CountReq where
  | any
  | exactly (n : Nat)
  | below (n : Nat)
deriving DecidableEq, Repr

/-- The further condition of a row, in the words of the table's `cond` (R71). -/
inductive RowCond where
  | always
  /-- `1 <= Lnew <= MAX_PAYLOAD` -/
  | lenInRange
  /-- `Lnew = 0` -/
  | lenZero
  /-- `Lnew > MAX_PAYLOAD` -/
  | lenOver
  /-- `count + 1 < expected_len` -/
  | moreToCome
  /-- `count + 1 = expected_len` -/
  | lastByte
  /-- `ck_ok` false -/
  | ckBad
  /-- `ck_ok` true and `known` true -/
  | ckKnown
  /-- `ck_ok` true and `known` false -/
  | ckUnknown
deriving DecidableEq, Repr

/-- One step row of spec/opcode_table.json (R71): the byte selects it when `(x & mask) = match` and `x` is not excluded. -/
structure Row where
  phase     : Phase
  count     : CountReq
  cond      : RowCond
  matchBits : Byte
  mask      : Byte
  excluded  : List Byte
deriving DecidableEq, Repr

/-- The row of a step operation; the others have none (R70, R71). -/
def rowOf : Instr → Option Row
  | .ss1Hit => some ⟨.seekSync1, .exactly 0, .always, 0xB5, 0xFF, []⟩
  | .ss1Skip _ => some ⟨.seekSync1, .exactly 0, .always, 0x00, 0x00, [0xB5]⟩
  | .ss2Hit => some ⟨.seekSync2, .exactly 0, .always, 0x62, 0xFF, []⟩
  | .ss2Restart => some ⟨.seekSync2, .exactly 0, .always, 0xB5, 0xFF, []⟩
  | .ss2Miss _ => some ⟨.seekSync2, .exactly 0, .always, 0x00, 0x00, [0x62, 0xB5]⟩
  | .hdrAcc _ => some ⟨.readHeader, .below 3, .always, 0x00, 0x00, []⟩
  | .hdrLen _ => some ⟨.readHeader, .exactly 3, .lenInRange, 0x00, 0x00, []⟩
  | .hdrLenZero => some ⟨.readHeader, .exactly 3, .lenZero, 0x00, 0xFF, []⟩
  | .hdrOversize _ => some ⟨.readHeader, .exactly 3, .lenOver, 0x00, 0x00, []⟩
  | .payAcc _ => some ⟨.readPayload, .any, .moreToCome, 0x00, 0x00, []⟩
  | .payLast _ => some ⟨.readPayload, .any, .lastByte, 0x00, 0x00, []⟩
  | .ckFirst _ => some ⟨.readChecksum, .exactly 0, .always, 0x00, 0x00, []⟩
  | .ckFail _ => some ⟨.readChecksum, .exactly 1, .ckBad, 0x00, 0x00, []⟩
  | .ckOkDecoded _ => some ⟨.readChecksum, .exactly 1, .ckKnown, 0x00, 0x00, []⟩
  | .ckOkUnknown _ => some ⟨.readChecksum, .exactly 1, .ckUnknown, 0x00, 0x00, []⟩
  | .idle => none
  | .rst => none
  | .checksum _ => none
  | .verify _ _ _ => none
  | .le16 _ _ => none
  | .field _ _ _ _ => none
  | .frame _ _ _ => none

/-- A row's requirement on `count`. -/
def CountReq.holds (n : Nat) : CountReq → Bool
  | .any => true
  | .exactly k => decide (n = k)
  | .below k => decide (n < k)

/-- A row's further condition in `s` for the byte `x`. -/
def RowCond.holds (s : State) (x : Byte) : RowCond → Bool
  | .always => true
  | .lenInRange => (lenNew s.sync.buf x).any fun len => decide (1 ≤ len) && decide (len ≤ s.cfg.maxPayload)
  | .lenZero => (lenNew s.sync.buf x).any fun len => decide (len = 0)
  | .lenOver => (lenNew s.sync.buf x).any fun len => decide (len > s.cfg.maxPayload)
  | .moreToCome => decide (s.sync.count.toNat + 1 < s.sync.expectedLen.toNat)
  | .lastByte => decide (s.sync.count.toNat + 1 = s.sync.expectedLen.toNat)
  | .ckBad => (ckView s.sync).any fun v => !ckOk s.cfg v x
  | .ckKnown => (ckView s.sync).any fun v => ckOk s.cfg v x && known s.cfg v.cls v.id s.sync.expectedLen.toNat
  | .ckUnknown => (ckView s.sync).any fun v => ckOk s.cfg v x && !known s.cfg v.cls v.id s.sync.expectedLen.toNat

/-- All of a row holds for the byte `x` in `s` (R71). -/
def Row.holds (r : Row) (s : State) (x : Byte) : Bool :=
  decide (s.sync.phase = r.phase) && r.count.holds s.sync.count.toNat && r.cond.holds s x &&
    decide (x &&& r.mask = r.matchBits) && !r.excluded.contains x

/-- The 15 step operations for the input byte `x` (R70 rows 1 to 15). -/
def stepCandidates (x : Byte) : List Instr :=
  [.ss1Hit, .ss1Skip x, .ss2Hit, .ss2Restart, .ss2Miss x, .hdrAcc x, .hdrLen x, .hdrLenZero, .hdrOversize x,
   .payAcc x, .payLast x, .ckFirst x, .ckFail x, .ckOkDecoded x, .ckOkUnknown x]

/-- The step operation `i` is selected by its table row for the byte `x` in `s`. -/
def selectedByRow (s : State) (x : Byte) (i : Instr) : Bool := (rowOf i).any fun r => r.holds s x

/-- The instruction words of a table word: none for an empty one, one byte for up to 8 bits (R71). -/
def tableEvent (nbits w : Nat) : Event :=
  if nbits = 0 then .idle else .byte (BitVec.ofNat 8 w)

/-- The host's question: the operation this word selects as the first one after reset, that is in RESET_STATE (log 15).
Every instruction word is one byte, so a longer word is no instruction. -/
def decodeTableWord (nbits w : Nat) : Option Instr :=
  if nbits ≤ 8 then (decodeEvent State.reset (tableEvent nbits w)).toOption else none

end Sys2Proof
end

