-- ==== Sys2Proof/Machine/ChecksumEmit.lean ====
section
/-! DEFINITION. The checksum, decode and emission operations (R120 to R125). The last three end in RESET_STATE (R129);
CK_B is not stored before the clear (unobservable, log 12). -/

namespace Sys2Proof.Machine

/-- CK_FIRST (R120): no comparison yet. -/
def execCkFirst (x : Byte) (s : State) : Host.Outcome State Fault Refusal :=
  whenOperands (decide (s.sync.phase = .readChecksum) && decide (s.sync.count = 0))
    (storing s x fun sy => { sy with count := 1 })

/-- The CK_B step: run `k` on what it reads of the buffer (R121). -/
def atCkB (s : State) (k : CkView → Host.Outcome State Fault Refusal) : Host.Outcome State Fault Refusal :=
  whenOperands (decide (s.sync.phase = .readChecksum) && decide (s.sync.count = 1))
    (match ckView s.sync with
     | none => .refused .bufferBounds
     | some v => k v)

/-- CK_FAIL (R122): `expected` is the computed pair, `actual` the received one (R132); no layout lookup (R127). -/
def execCkFail (x : Byte) (s : State) : Host.Outcome State Fault Refusal :=
  atCkB s fun v =>
    whenOperands (!ckOk s.cfg v x)
      (.next (raise .checksumMismatch
        (some (.checksumError v.cls v.id (checksum s.cfg.ckMod v.span) (v.ckA, x))) s))

/-- CK_OK_DECODED (R123): the payload decoded by the layout of (class, id). -/
def execCkOkDecoded (x : Byte) (s : State) : Host.Outcome State Fault Refusal :=
  atCkB s fun v =>
    whenOperands (ckOk s.cfg v x)
      (match usableLayout s.cfg v.cls v.id s.sync.expectedLen.toNat with
       | none => .refused .operandsNotMet
       | some l =>
         match decodeFields l v.payload with
         | none => .refused .fieldOperands
         | some fields => .next (endAttempt (some (.decodedMessage v.cls v.id fields)) none s))

/-- CK_OK_UNKNOWN (R125): the raw payload; `UnknownMessageType` is not an error (R165). -/
def execCkOkUnknown (x : Byte) (s : State) : Host.Outcome State Fault Refusal :=
  atCkB s fun v =>
    whenOperands (ckOk s.cfg v x && !known s.cfg v.cls v.id s.sync.expectedLen.toNat)
      (.next (endAttempt (some (.unknownMessage v.cls v.id v.payload)) (some .unknownMessageType) s))

end Sys2Proof.Machine
end

