-- ==== Sys2Proof/Machine/Control.lean ====
section
/-! DEFINITION. The operations without a byte: IDLE (R141) and the hard reset RST (R191). -/

namespace Sys2Proof.Machine

/-- IDLE (R141): the state persists, in any phase, for any number of polls. -/
def execIdle (s : State) : Host.Outcome State Fault Refusal := .next (quietly s s.sync)

/-- RST (R191): RESET_STATE from any state, no outputs; `Cfg` is not reset. -/
def execRst (s : State) : Host.Outcome State Fault Refusal := .next (quietly s Sync.reset)

end Sys2Proof.Machine
end

