-- ==== Sys2Proof/Machine/Functions.lean ====
section
/-! DEFINITION. The pure functions CHECKSUM, VERIFY, LE16, FIELD and the encode-side FRAME as instructions (R70 rows 18
to 22): no element of the state is read or written but the constant CK_MOD; the result is the step's value (log 13). -/

namespace Sys2Proof.Machine

/-- CHECKSUM (R90). -/
def execChecksum (bs : List Byte) (s : State) : Host.Outcome State Fault Refusal :=
  let c := checksum s.cfg.ckMod bs
  .next (delivering (.pair c.1 c.2) s)

/-- VERIFY (R93). -/
def execVerify (bs : List Byte) (ckA ckB : Byte) (s : State) : Host.Outcome State Fault Refusal :=
  .next (delivering (.bool (verify s.cfg.ckMod bs ckA ckB)) s)

/-- LE16 (R64). -/
def execLe16 (lenLo lenHi : Byte) (s : State) : Host.Outcome State Fault Refusal :=
  .next (delivering (.nat (le16 lenLo lenHi)) s)

/-- FIELD (R66); its requirement on offset and width is R126's (log 14). -/
def execField (payload : List Byte) (offset width : Nat) (signed : Bool) (s : State) :
    Host.Outcome State Fault Refusal :=
  match fieldOf payload offset width signed with
  | none => .refused .fieldOperands
  | some v => .next (delivering (.int v) s)

/-- FRAME (R150); |p| <= 65535 (log 14). -/
def execFrame (cls id : Byte) (p : List Byte) (s : State) : Host.Outcome State Fault Refusal :=
  if p.length ≤ 65535 then .next (delivering (.bytes (frame s.cfg.ckMod cls id p)) s)
  else .refused .frameOperands

end Sys2Proof.Machine
end

