-- ==== Sys2Proof/Machine/HeaderPayload.lean ====
section
/-! DEFINITION. The header and payload operations (R110 to R116). -/

namespace Sys2Proof.Machine

/-- HDR_ACC (R110): class, id or lenLo. -/
def execHdrAcc (x : Byte) (s : State) : Host.Outcome State Fault Refusal :=
  whenOperands (decide (s.sync.phase = .readHeader) && decide (s.sync.count.toNat < 3))
    (storing s x fun sy => { sy with count := sy.count + 1 })

/-- The fourth header byte: run `k` on Lnew (R111). -/
def atLenHi (x : Byte) (s : State) (k : Nat → Host.Outcome State Fault Refusal) : Host.Outcome State Fault Refusal :=
  whenOperands (decide (s.sync.phase = .readHeader) && decide (s.sync.count.toNat = 3))
    (match lenNew s.sync.buf x with
     | none => .refused .bufferBounds
     | some len => k len)

/-- HDR_LEN (R112): length in 1..MAX_PAYLOAD. -/
def execHdrLen (x : Byte) (s : State) : Host.Outcome State Fault Refusal :=
  atLenHi x s fun len =>
    whenOperands (!oversize s.cfg len && decide (1 ≤ len))
      (storing s x fun sy => { sy with phase := .readPayload, expectedLen := BitVec.ofNat 16 len, count := 0 })

/-- HDR_LEN_ZERO (R113): `ReadPayload` is skipped in this same step. The byte is lenHi = 0x00. -/
def execHdrLenZero (s : State) : Host.Outcome State Fault Refusal :=
  atLenHi 0x00 s fun len =>
    whenOperands (decide (len = 0))
      (storing s 0x00 fun sy => { sy with phase := .readChecksum, expectedLen := 0, count := 0 })

/-- HDR_OVERSIZE (R114): `OversizePayload` with its info triple; no emission, the strobe (R163, R186). lenHi is not
stored before the clear (unobservable, log 12). -/
def execHdrOversize (x : Byte) (s : State) : Host.Outcome State Fault Refusal :=
  atLenHi x s fun len =>
    whenOperands (oversize s.cfg len)
      (match Memory.read s.sync.buf 2, Memory.read s.sync.buf 3 with
       | some cls, some id => .next (raise (.oversizePayload cls id (BitVec.ofNat 16 len)) none s)
       | _, _ => .refused .bufferBounds)

/-- PAY_ACC (R115). -/
def execPayAcc (x : Byte) (s : State) : Host.Outcome State Fault Refusal :=
  whenOperands (decide (s.sync.phase = .readPayload) && decide (s.sync.count.toNat + 1 < s.sync.expectedLen.toNat))
    (storing s x fun sy => { sy with count := sy.count + 1 })

/-- PAY_LAST (R116). -/
def execPayLast (x : Byte) (s : State) : Host.Outcome State Fault Refusal :=
  whenOperands (decide (s.sync.phase = .readPayload) && decide (s.sync.count.toNat + 1 = s.sync.expectedLen.toNat))
    (storing s x fun sy => { sy with phase := .readChecksum, count := 0 })

end Sys2Proof.Machine
end

