-- ==== Sys2Proof/Machine/SyncSearch.lean ====
section
/-! DEFINITION. The sync search operations (R100 to R104). -/

namespace Sys2Proof.Machine

/-- The state a first sync byte leaves: the buffer is `[0xB5]` (R22, R100, R103). -/
def Sync.syncStarted : Sync :=
  { phase := .seekSync2, buf := Memory.ofBytes [sync1], expectedLen := 0, count := 0 }

/-- SS1_HIT (R100). -/
def execSs1Hit (s : State) : Host.Outcome State Fault Refusal :=
  whenOperands (decide (s.sync.phase = .seekSync1)) (.next (quietly s Sync.syncStarted))

/-- SS1_SKIP (R101): the byte leaves no trace; `SyncLost` in the wide sense, silent (R162). -/
def execSs1Skip (x : Byte) (s : State) : Host.Outcome State Fault Refusal :=
  whenOperands (decide (s.sync.phase = .seekSync1) && x != sync1) (.next (noting .syncLost (quietly s s.sync)))

/-- SS2_HIT (R102). -/
def execSs2Hit (s : State) : Host.Outcome State Fault Refusal :=
  whenOperands (decide (s.sync.phase = .seekSync2))
    (storing s sync2 fun sy => { sy with phase := .readHeader, count := 0 })

/-- SS2_RESTART (R103): exactly the state SS1_HIT produces; the earlier 0xB5 is abandoned silently (R161). -/
def execSs2Restart (s : State) : Host.Outcome State Fault Refusal :=
  whenOperands (decide (s.sync.phase = .seekSync2))
    (.next (noting .syncLost (quietly s Sync.syncStarted)))

/-- SS2_MISS (R104): `SyncLost`, nothing surfaced (R162). -/
def execSs2Miss (x : Byte) (s : State) : Host.Outcome State Fault Refusal :=
  whenOperands (decide (s.sync.phase = .seekSync2) && x != sync2 && x != sync1) (.next (raise .syncLost none s))

end Sys2Proof.Machine
end

