-- ==== Sys2Proof/Machine/Dispatch.lean ====
section
/-! DEFINITION. One arm per operation of R70, each one direct call of its meaning. -/

namespace Sys2Proof.Machine

def exec (i : Instr) (s : State) : Host.Outcome State Fault Refusal :=
  match i with
  | .ss1Hit => Sys2Proof.Machine.execSs1Hit s
  | .ss1Skip x => Sys2Proof.Machine.execSs1Skip x s
  | .ss2Hit => Sys2Proof.Machine.execSs2Hit s
  | .ss2Restart => Sys2Proof.Machine.execSs2Restart s
  | .ss2Miss x => Sys2Proof.Machine.execSs2Miss x s
  | .hdrAcc x => Sys2Proof.Machine.execHdrAcc x s
  | .hdrLen x => Sys2Proof.Machine.execHdrLen x s
  | .hdrLenZero => Sys2Proof.Machine.execHdrLenZero s
  | .hdrOversize x => Sys2Proof.Machine.execHdrOversize x s
  | .payAcc x => Sys2Proof.Machine.execPayAcc x s
  | .payLast x => Sys2Proof.Machine.execPayLast x s
  | .ckFirst x => Sys2Proof.Machine.execCkFirst x s
  | .ckFail x => Sys2Proof.Machine.execCkFail x s
  | .ckOkDecoded x => Sys2Proof.Machine.execCkOkDecoded x s
  | .ckOkUnknown x => Sys2Proof.Machine.execCkOkUnknown x s
  | .idle => Sys2Proof.Machine.execIdle s
  | .rst => Sys2Proof.Machine.execRst s
  | .checksum bs => Sys2Proof.Machine.execChecksum bs s
  | .verify bs ckA ckB => Sys2Proof.Machine.execVerify bs ckA ckB s
  | .le16 lenLo lenHi => Sys2Proof.Machine.execLe16 lenLo lenHi s
  | .field payload offset width signed => Sys2Proof.Machine.execField payload offset width signed s
  | .frame cls id p => Sys2Proof.Machine.execFrame cls id p s

end Sys2Proof.Machine
end

