-- ==== Sys2Proof/Machine/Fetch.lean ====
section
/-! DEFINITION. Taking the next event from the caller's list: that a step takes its first event, and none when it
is empty, is the model's choice (log 1); a step with nothing left is a poll without a byte (R141, R210). -/

namespace Sys2Proof.Machine

/-- The next event and the state with that event consumed. -/
def fetch (s : State) : Event × State :=
  match s.input with
  | [] => (.idle, s)
  | e :: rest => (e, { s with input := rest })

/-- Put an event first in the caller's list. -/
def deliver (e : Event) (s : State) : State := { s with input := e :: s.input }

end Sys2Proof.Machine
end

