-- ==== Sys2Proof/Machine/Step.lean ====
section
/-! DEFINITION. The step function (R140): refuse an ill-formed `Cfg` (R183), take one event, select its operation
(R68), apply that operation's rule. -/

namespace Sys2Proof.Machine

/-- The effect of one event on the instance (R140, R141, R191). -/
def stepEvent (e : Event) (s : State) : Host.Outcome State Fault Refusal :=
  if s.cfg.wf then
    match decodeEvent s e with
    | .error r => .refused r
    | .ok i => exec i s
  else .refused .illFormedCfg

/-- One step: the next event of the caller's list, `IDLE` when there is none. -/
def step (s : State) : Host.Outcome State Fault Refusal :=
  let f := fetch s
  stepEvent f.1 f.2

/-- `s` with the table word as the next event the caller delivers (log 15). -/
def State.withFetchWord (s : State) (nbits w : Nat) : State := deliver (tableEvent nbits w) s

end Sys2Proof.Machine
end

