-- ==== Sys2Proof/Machine/Ports.lean ====
section
/-! DEFINITION. The offered port binding (R144) as functions of what the last step presented, and the numeric codes of
R21 and R161. A port whose value the spec does not give while `out_valid` is 0 has no value then (log 17). -/

namespace Sys2Proof.Machine

/-- Phase codes (R21). -/
def Phase.code : Phase → BitVec 3
  | .seekSync1 => 0
  | .seekSync2 => 1
  | .readHeader => 2
  | .readPayload => 3
  | .readChecksum => 4

/-- `out_kind` of a record (R161). -/
def Emission.kind : Emission → BitVec 2
  | .decodedMessage _ _ _ => 1
  | .unknownMessage _ _ _ => 2
  | .checksumError _ _ _ _ => 3

/-- The record's class (R34). -/
def Emission.cls : Emission → Byte
  | .decodedMessage c _ _ => c
  | .unknownMessage c _ _ => c
  | .checksumError c _ _ _ => c

/-- The record's id (R34). -/
def Emission.id : Emission → Byte
  | .decodedMessage _ i _ => i
  | .unknownMessage _ i _ => i
  | .checksumError _ i _ _ => i

/-- `out_body`: fields, or raw payload, or (expected, actual), by kind; its serialisation is not specified (R144, U8). -/
inductive Body where
  | fields (fs : List (String × Int))
  | rawPayload (bs : List Byte)
  | checksums (expected actual : Byte × Byte)
deriving DecidableEq, Repr

/-- The body of a record (R144). -/
def Emission.body : Emission → Body
  | .decodedMessage _ _ fs => .fields fs
  | .unknownMessage _ _ p => .rawPayload p
  | .checksumError _ _ e a => .checksums e a

/-- `in_ready`: constant 1 (R145). -/
def inReady (_ : State) : Bool := true
/-- `out_valid` (R144). -/
def outValid (s : State) : Bool := s.out.emission.isSome
/-- `out_kind`; 0 is never presented with `out_valid` = 1 (R161). -/
def outKind (s : State) : BitVec 2 := (s.out.emission.map Emission.kind).getD 0
/-- `out_class` (R144). -/
def outClass (s : State) : Option Byte := s.out.emission.map Emission.cls
/-- `out_id` (R144). -/
def outId (s : State) : Option Byte := s.out.emission.map Emission.id
/-- `out_len` (R144). -/
def outLen (s : State) : Option Half := s.out.outLen
/-- `out_body` (R144). -/
def outBody (s : State) : Option Body := s.out.emission.map Emission.body
/-- `diag_oversize` (R144, R186). -/
def diagOversize (s : State) : Bool := s.out.diagOversize

end Sys2Proof.Machine
end

