-- ==== Sys2Proof/Machine/Run.lean ====
section
/-! DEFINITION. Runs over a stream (R142) and what they output. -/

namespace Sys2Proof.Machine

/-- Feed a list of events, one step each; the final state and each step's outputs in order (R142). -/
def feed (s : State) : List Event → Host.Outcome (State × List Outputs) Fault Refusal
  | [] => .next (s, [])
  | e :: es =>
    match stepEvent e s with
    | .next s' =>
      match feed s' es with
      | .next r => .next (r.1, s'.out :: r.2)
      | .fault f => .fault f
      | .refused r => .refused r
    | .fault f => .fault f
    | .refused r => .refused r

/-- Feed a byte stream (R142). -/
def feedBytes (s : State) (bs : List Byte) : Host.Outcome (State × List Outputs) Fault Refusal :=
  feed s (bs.map Event.byte)

/-- The emissions of a run, in order (R142). -/
def emissions (os : List Outputs) : List Emission := os.filterMap Outputs.emission

/-- The step indices at which the strobe was raised, counting from `k` (R142). -/
def strobesFrom : Nat → List Outputs → List Nat
  | _, [] => []
  | k, o :: os => if o.diagOversize then k :: strobesFrom (k + 1) os else strobesFrom (k + 1) os

/-- The step indices at which the strobe was raised (R142). -/
def strobes (os : List Outputs) : List Nat := strobesFrom 0 os

/-- A step that presents neither a record nor the strobe. -/
def Outputs.silent (o : Outputs) : Bool := o.emission.isNone && !o.diagOversize

/-- The event delivers a byte to the instance: `in_valid` without `rst` (R141, R144, R191). -/
def Event.deliversByte : Event → Bool
  | .cycle p => p.inValid && !p.rst
  | .call _ => false

/-- The outputs of a run at its byte steps: what is left when polls and calls are taken out (R142). -/
def byteOutputs : List Event → List Outputs → List Outputs
  | e :: es, o :: os => if Event.deliversByte e then o :: byteOutputs es os else byteOutputs es os
  | _, _ => []

/-- `rst` is asserted by this event (R191). -/
def Event.assertsRst : Event → Bool
  | .cycle p => p.rst
  | .call _ => false

end Sys2Proof.Machine
end

