-- ==== Sys2Proof/Safety.lean ====
section
/-! DEFINITION. What counts as a safe instance and a safe run, in the terms the statements use. -/

namespace Sys2Proof

open Machine

/-- The invariant of R25 under a well-formed `Cfg` (R7). -/
def StateInv (s : State) : Prop := s.wf = true

/-- The outcome is a next state with the four elements `sy`, the emission `em` and the strobe `diag`; the configuration
and the events still to come are those of `s` (R29, R140, R185). -/
def Completes (o : Host.Outcome State Fault Refusal) (s : State) (sy : Sync) (em : Option Emission) (diag : Bool) :
    Prop :=
  ∃ t, o = .next t ∧ t.sync = sy ∧ t.cfg = s.cfg ∧ t.input = s.input ∧ t.out.emission = em ∧ t.out.diagOversize = diag

/-- The outcome is a next state that delivers the value `v` and changes nothing else of the instance: the four elements,
the configuration and the events still to come are those of `s`, and no record and no strobe is presented (log 13). -/
def Delivers (o : Host.Outcome State Fault Refusal) (s : State) (v : Value) : Prop :=
  ∃ t, o = .next t ∧ t.sync = s.sync ∧ t.cfg = s.cfg ∧ t.input = s.input ∧ t.out.value = some v ∧
    t.out.emission = none ∧ t.out.diagOversize = false

/-- Every state a list of events leads to from `s` (R142): no step refused. -/
def RunsTo (s : State) (es : List Event) (t : State) (os : List Outputs) : Prop := feed s es = .next (t, os)

/-- A run is safe when it is refused nowhere. -/
def SafeRun (s : State) (es : List Event) : Prop := ∃ t os, RunsTo s es t os

/-- The stream holds an adjacent pair 0xB5, 0x62: a "valid sync marker" (R105, R151). -/
def hasSyncPair : List Byte → Bool
  | a :: b :: bs => (a == sync1 && b == sync2) || hasSyncPair (b :: bs)
  | _ => false

/-- The record a checksum-valid frame is emitted as (R123, R124, R125, R152): `none` only if a field lies outside the
payload, which R124 rules out. -/
def validRecord (c : Cfg) (cls id : Byte) (p : List Byte) : Option Emission :=
  match usableLayout c cls id p.length with
  | none => some (.unknownMessage cls id p)
  | some l => (decodeFields l p).map fun fs => .decodedMessage cls id fs

end Sys2Proof
end

