-- ==== Sys2Proof/Certificates/Slice0/Obligations.lean ====
section
/-! DEFINITION. The statements for the provers. `wf` of a `Sync` is R25's table; `Completes` and `Delivers` (Safety.lean)
say that the outcome is a next state and what it holds, the frame included. No statement fixes a configuration. -/

open Sys2Proof Sys2Proof.Machine

/-! ## Reset, creation, decode samples, the step -/

/-- R30: creation, RST and ResetToSeek give one and the same four elements. The zeros of `expected_len` and `count` are the
spec's own choice (D3, log 11). -/
def Obligations.ResetStateValues : Prop :=
  ∀ (c : Cfg) (s : State),
    let r : Sync := { phase := .seekSync1, buf := [], expectedLen := 0, count := 0 }
    (State.resetWith c).sync = r ∧ (State.resetWith c).cfg = c ∧ (resetToSeek s).sync = r ∧
      Completes (exec .rst s) s r none false

/-- The reset state of every well-formed configuration meets R25. -/
def Obligations.ResetMeetsInvariant : Prop :=
  StateInv State.reset ∧ ∀ c : Cfg, c.wf = true → StateInv (State.resetWith c)

/-- R7, R183: an ill-formed `Cfg` is refused at creation and at every step, a well-formed one is accepted. -/
def Obligations.IllFormedCfgIsRefused : Prop :=
  (∀ c : Cfg, c.wf = false → create c = .refused .illFormedCfg) ∧
  (∀ c : Cfg, c.wf = true → create c = .next (State.resetWith c)) ∧
  ∀ s : State, s.cfg.wf = false → step s = .refused .illFormedCfg

/-- R68 on a few words: the same byte is another operation, or data, in another phase. -/
def Obligations.SampleWordsDecode : Prop :=
  ∀ c : Cfg,
    let at_ (p : Phase) (bs : List Byte) (n : Half) : State :=
      { State.resetWith c with sync := { phase := p, buf := Memory.ofBytes bs, expectedLen := 0, count := n } }
    decodeByte (at_ .seekSync1 [] 0) 0xB5 = .ok .ss1Hit ∧
    decodeByte (at_ .seekSync1 [] 0) 0x62 = .ok (.ss1Skip 0x62) ∧
    decodeByte (at_ .seekSync2 [0xB5] 0) 0x62 = .ok .ss2Hit ∧
    decodeByte (at_ .seekSync2 [0xB5] 0) 0xB5 = .ok .ss2Restart ∧
    decodeByte (at_ .seekSync2 [0xB5] 0) 0x65 = .ok (.ss2Miss 0x65) ∧
    decodeByte (at_ .readHeader [0xB5, 0x62] 0) 0xB5 = .ok (.hdrAcc 0xB5) ∧
    decodeByte (at_ .readHeader [0xB5, 0x62, 0x0A, 0x04, 0x00] 3) 0x00 = .ok .hdrLenZero

/-- R140, R210: a step takes the next event of the list (log 1; a poll without a byte when none is left) and runs the
operation it decodes to. -/
def Obligations.StepRunsDecodedInstruction : Prop :=
  (∀ (s : State) (e : Event) (rest : List Event) (i : Instr), s.cfg.wf = true → s.input = e :: rest →
    decodeEvent s e = .ok i → step s = exec i { s with input := rest }) ∧
  (∀ s : State, s.cfg.wf = true → s.input = [] → step s = exec .idle s)

/-! ## Sync search -/

/-- R100; the second clause is its corner case: no other byte leaves `SeekSync1`. -/
def Obligations.Ss1HitStoresFirstSyncByte : Prop :=
  (∀ s : State, s.sync.phase = .seekSync1 →
    Completes (exec .ss1Hit s) s
      { phase := .seekSync2, buf := Memory.ofBytes [0xB5], expectedLen := 0, count := 0 } none false) ∧
  ∀ (s t : State) (x : Byte), s.sync.phase = .seekSync1 → stepEvent (.byte x) s = .next t → t.sync.phase ≠ .seekSync1 →
    x = 0xB5 ∧ stepEvent (.byte x) s = exec .ss1Hit s

/-- R101; the second clause is its fixed point: any number of such bytes leaves RESET_STATE unchanged. -/
def Obligations.Ss1SkipLeavesNoTrace : Prop :=
  (∀ (s : State) (x : Byte), s.sync.phase = .seekSync1 → x ≠ 0xB5 →
    Completes (exec (.ss1Skip x) s) s s.sync none false) ∧
  ∀ (s : State) (bs : List Byte), s.cfg.wf = true → s.sync = Sync.reset → (∀ x ∈ bs, x ≠ 0xB5) →
    ∃ t os, feedBytes s bs = .next (t, os) ∧ t.sync = Sync.reset ∧ emissions os = [] ∧ strobes os = []

/-- R102. -/
def Obligations.Ss2HitEntersReadHeader : Prop :=
  ∀ s : State, s.sync.wf s.cfg = true → s.sync.phase = .seekSync2 →
    Completes (exec .ss2Hit s) s
      { phase := .readHeader, buf := Memory.ofBytes [0xB5, 0x62], expectedLen := 0, count := 0 } none false

/-- R103: the state SS1_HIT produces, which under R25 is the state before; a run of 0xB5 bytes followed by 0x62 reaches
`ReadHeader` at its last byte. -/
def Obligations.Ss2RestartKeepsNewSyncByte : Prop :=
  (∀ s : State, s.sync.phase = .seekSync2 →
    Completes (exec .ss2Restart s) s
      { phase := .seekSync2, buf := Memory.ofBytes [0xB5], expectedLen := 0, count := 0 } none false ∧
    (s.sync.wf s.cfg = true →
      s.sync = { phase := .seekSync2, buf := Memory.ofBytes [0xB5], expectedLen := 0, count := 0 })) ∧
  ∀ (s : State) (n : Nat), s.cfg.wf = true → s.sync = Sync.reset →
    ∃ t os, feedBytes s (List.replicate (n + 1) 0xB5 ++ [0x62]) = .next (t, os) ∧ emissions os = [] ∧ strobes os = [] ∧
      t.sync = { phase := .readHeader, buf := Memory.ofBytes [0xB5, 0x62], expectedLen := 0, count := 0 }

/-- R104. -/
def Obligations.Ss2MissResetsSilently : Prop :=
  ∀ (s : State) (x : Byte), s.sync.phase = .seekSync2 → x ≠ 0x62 → x ≠ 0xB5 →
    Completes (exec (.ss2Miss x) s) s
      { phase := .seekSync1, buf := [], expectedLen := 0, count := 0 } none false

/-! ## Header and payload -/

/-- R110: stored at index 2 + count, whatever its value. -/
def Obligations.HdrAccStoresHeaderByte : Prop :=
  ∀ (s : State) (x : Byte), s.sync.wf s.cfg = true → s.sync.phase = .readHeader → s.sync.count.toNat < 3 →
    Completes (exec (.hdrAcc x) s) s
      { phase := .readHeader, buf := Memory.ofBytes (Memory.bytes s.sync.buf ++ [x]), expectedLen := 0,
        count := s.sync.count + 1 } none false ∧
    Memory.read (Memory.ofBytes (Memory.bytes s.sync.buf ++ [x])) (2 + s.sync.count.toNat) = some x

/-- R112: `x ++ lo` is the 16-bit value with lenHi in bits 15..8 and lenLo in bits 7..0. -/
def Obligations.HdrLenStartsPayload : Prop :=
  ∀ (s : State) (cls id lo x : Byte),
    s.sync = { phase := .readHeader, buf := Memory.ofBytes [0xB5, 0x62, cls, id, lo], expectedLen := 0, count := 3 } →
    1 ≤ (x ++ lo : BitVec 16).toNat → (x ++ lo : BitVec 16).toNat ≤ s.cfg.maxPayload →
    Completes (exec (.hdrLen x) s) s
      { phase := .readPayload, buf := Memory.ofBytes [0xB5, 0x62, cls, id, lo, x], expectedLen := x ++ lo, count := 0 }
      none false

/-- R113: with three header bytes stored and lenLo = 0x00 the step completes, and `ReadPayload` is skipped in it. -/
def Obligations.HdrLenZeroSkipsPayload : Prop :=
  ∀ (s : State) (cls id : Byte),
    s.sync = { phase := .readHeader, buf := Memory.ofBytes [0xB5, 0x62, cls, id, 0x00], expectedLen := 0, count := 3 } →
    Completes (exec .hdrLenZero s) s
      { phase := .readChecksum, buf := Memory.ofBytes [0xB5, 0x62, cls, id, 0x00, 0x00], expectedLen := 0, count := 0 }
      none false

/-- R114: reset, strobe, no emission (D8). -/
def Obligations.HdrOversizeDropsFrame : Prop :=
  ∀ (s : State) (cls id lo x : Byte),
    s.sync = { phase := .readHeader, buf := Memory.ofBytes [0xB5, 0x62, cls, id, lo], expectedLen := 0, count := 3 } →
    s.cfg.maxPayload < (x ++ lo : BitVec 16).toNat →
    Completes (exec (.hdrOversize x) s) s
      { phase := .seekSync1, buf := [], expectedLen := 0, count := 0 } none true

/-- R115: stored at index 6 + count. -/
def Obligations.PayAccStoresPayloadByte : Prop :=
  ∀ (s : State) (x : Byte), s.sync.wf s.cfg = true → s.sync.phase = .readPayload →
    s.sync.count.toNat + 1 < s.sync.expectedLen.toNat →
    Completes (exec (.payAcc x) s) s
      { phase := .readPayload, buf := Memory.ofBytes (Memory.bytes s.sync.buf ++ [x]), expectedLen := s.sync.expectedLen,
        count := s.sync.count + 1 } none false ∧
    Memory.read (Memory.ofBytes (Memory.bytes s.sync.buf ++ [x])) (6 + s.sync.count.toNat) = some x

/-- R116. -/
def Obligations.PayLastEntersReadChecksum : Prop :=
  ∀ (s : State) (x : Byte), s.sync.wf s.cfg = true → s.sync.phase = .readPayload →
    s.sync.count.toNat + 1 = s.sync.expectedLen.toNat →
    Completes (exec (.payLast x) s) s
      { phase := .readChecksum, buf := Memory.ofBytes (Memory.bytes s.sync.buf ++ [x]), expectedLen := s.sync.expectedLen,
        count := 0 } none false ∧
    Memory.read (Memory.ofBytes (Memory.bytes s.sync.buf ++ [x])) (5 + s.sync.expectedLen.toNat) = some x

/-! ## Checksum and emission -/

/-- R120: stored at index 6 + L, no comparison yet. -/
def Obligations.CkFirstStoresCkA : Prop :=
  ∀ (s : State) (x : Byte), s.sync.wf s.cfg = true → s.sync.phase = .readChecksum → s.sync.count = 0 →
    Completes (exec (.ckFirst x) s) s
      { phase := .readChecksum, buf := Memory.ofBytes (Memory.bytes s.sync.buf ++ [x]), expectedLen := s.sync.expectedLen,
        count := 1 } none false ∧
    Memory.read (Memory.ofBytes (Memory.bytes s.sync.buf ++ [x])) (6 + s.sync.expectedLen.toNat) = some x

/-- R122, R121: the record holds the received class and id, the computed pair as `expected` and the received pair as
`actual`; which pair is which is the spec's own choice (R132, D7, log 21). -/
def Obligations.CkFailEmitsChecksumError : Prop :=
  ∀ (s : State) (cls id lo hi ckA x : Byte) (p : List Byte) (len : Half),
    s.sync = { phase := .readChecksum, buf := Memory.ofBytes ([0xB5, 0x62, cls, id, lo, hi] ++ p ++ [ckA]),
               expectedLen := len, count := 1 } → p.length = len.toNat →
    checksum s.cfg.ckMod ([cls, id, lo, hi] ++ p) ≠ (ckA, x) →
    Completes (exec (.ckFail x) s) s { phase := .seekSync1, buf := [], expectedLen := 0, count := 0 }
      (some (.checksumError cls id (checksum s.cfg.ckMod ([cls, id, lo, hi] ++ p)) (ckA, x))) false

/-- R123, R126: the layout of (class, id), every field `(name, value)` in the layout's order, `value` read at
`offset .. offset + width - 1` of the payload; a signed value is two's complement (log 6). That every
payload of at least `min_len` bytes is decoded, an over-long one included, is the spec's own choice (D11, R124, R130,
log 21). -/
def Obligations.CkOkDecodedEmitsFields : Prop :=
  ∀ (s : State) (cls id lo hi ckA x : Byte) (p : List Byte) (len : Half) (l : Layout),
    s.cfg.wf = true →
    s.sync = { phase := .readChecksum, buf := Memory.ofBytes ([0xB5, 0x62, cls, id, lo, hi] ++ p ++ [ckA]),
               expectedLen := len, count := 1 } → p.length = len.toNat →
    checksum s.cfg.ckMod ([cls, id, lo, hi] ++ p) = (ckA, x) →
    s.cfg.lookup cls id = some l → (∀ f ∈ l, f.offset + f.width ≤ p.length) →
    Completes (exec (.ckOkDecoded x) s) s { phase := .seekSync1, buf := [], expectedLen := 0, count := 0 }
      (some (.decodedMessage cls id
        (l.map fun f => (f.name, fieldValue f.signed f.width (leNat ((p.drop f.offset).take f.width)))))) false

/-- R125, R124: no layout for (class, id), or a field of it beyond the payload (the spec's own choices D9, D11). -/
def Obligations.CkOkUnknownEmitsRawPayload : Prop :=
  ∀ (s : State) (cls id lo hi ckA x : Byte) (p : List Byte) (len : Half),
    s.sync = { phase := .readChecksum, buf := Memory.ofBytes ([0xB5, 0x62, cls, id, lo, hi] ++ p ++ [ckA]),
               expectedLen := len, count := 1 } → p.length = len.toNat →
    checksum s.cfg.ckMod ([cls, id, lo, hi] ++ p) = (ckA, x) →
    (∀ l, s.cfg.lookup cls id = some l → ∃ f ∈ l, p.length < f.offset + f.width) →
    Completes (exec (.ckOkUnknown x) s) s { phase := .seekSync1, buf := [], expectedLen := 0, count := 0 }
      (some (.unknownMessage cls id p)) false

/-! ## IDLE, RST, the functions -/

/-- R141: any number of polls, in any state, leaves the four elements as they were (D5, D17). -/
def Obligations.IdleChangesNothing : Prop :=
  (∀ s : State, Completes (exec .idle s) s s.sync none false) ∧
  ∀ (s : State) (n : Nat), s.cfg.wf = true →
    ∃ t os, feed s (List.replicate n .idle) = .next (t, os) ∧ t.sync = s.sync ∧ t.cfg = s.cfg ∧ emissions os = [] ∧
      strobes os = []

/-- R191, R169: from every state, with or without a byte in the same cycle, which is dropped (D6). -/
def Obligations.RstFromEveryState : Prop :=
  ∀ (s : State) (valid : Bool) (x : Byte),
    Completes (exec .rst s) s { phase := .seekSync1, buf := [], expectedLen := 0, count := 0 } none false ∧
    (s.cfg.wf = true → stepEvent (.cycle { rst := true, inValid := valid, inByte := x }) s = exec .rst s)

/-- R90, R93, R64: the three functions as instructions; that the result stands in `out.value` is the model's (log 13). -/
def Obligations.FunctionsDeliverTheirValue : Prop :=
  ∀ (s : State) (bs : List Byte) (a b : Byte),
    Delivers (exec (.checksum bs) s) s (.pair (checksum s.cfg.ckMod bs).1 (checksum s.cfg.ckMod bs).2) ∧
    Delivers (exec (.verify bs a b) s) s (.bool (decide (checksum s.cfg.ckMod bs = (a, b)))) ∧
    Delivers (exec (.le16 a b) s) s (.nat (a.toNat + 256 * b.toNat))

/-- R66: inside the payload FIELD delivers the little-endian pattern, two's complement when signed (log 6), as the step's
value (log 13). -/
def Obligations.FieldDeliversItsValue : Prop :=
  ∀ (s : State) (pre f post : List Byte), 1 ≤ f.length → f.length ≤ 8 →
    Delivers (exec (.field (pre ++ f ++ post) pre.length f.length false) s) s (.int (leNat f)) ∧
    Delivers (exec (.field (pre ++ f ++ post) pre.length f.length true) s) s
      (.int (if leNat f < 2 ^ (8 * f.length - 1) then (leNat f : Int) else (leNat f : Int) - 2 ^ (8 * f.length)))

/-- R150, R60: the frame's bytes in stream order, as the step's value (log 13). -/
def Obligations.FrameDeliversItsBytes : Prop :=
  ∀ (s : State) (cls id lo hi : Byte) (p : List Byte), p.length = lo.toNat + 256 * hi.toNat →
    Delivers (exec (.frame cls id p) s) s
      (.bytes ([0xB5, 0x62, cls, id, lo, hi] ++ p ++
        [(checksum s.cfg.ckMod ([cls, id, lo, hi] ++ p)).1, (checksum s.cfg.ckMod ([cls, id, lo, hi] ++ p)).2]))

/-- The model's choice (log 14): FIELD outside 1..8 bytes or beyond the payload and FRAME over 65535 bytes refuse. -/
def Obligations.FunctionsRefuseOutsideTheirOperands : Prop :=
  ∀ (s : State) (cls id : Byte) (p : List Byte) (o w : Nat) (sg : Bool),
    (exec (.field p o w sg) s = .refused .fieldOperands ↔ w = 0 ∨ 8 < w ∨ p.length < o + w) ∧
    (exec (.frame cls id p) s = .refused .frameOperands ↔ 65535 < p.length)

/-! ## Frames -/

/-- R22, R45: a storing operation writes its byte at the fill index and no other index. -/
def Obligations.StoringStepsWriteOnlyTheFillIndex : Prop :=
  ∀ (s t : State) (i : Instr) (x : Byte),
    (i = .ss2Hit ∨ i = .hdrAcc x ∨ i = .hdrLen x ∨ i = .hdrLenZero ∨ i = .payAcc x ∨ i = .payLast x ∨ i = .ckFirst x) →
    Memory.wf s.sync.buf = true → encode i = [x] → exec i s = .next t →
    Memory.read t.sync.buf s.sync.buf.length = some x ∧
    (∀ a, a ≠ s.sync.buf.length → Memory.read t.sync.buf a = Memory.read s.sync.buf a) ∧
    t.cfg = s.cfg ∧ t.input = s.input ∧ t.out.emission = none ∧ t.out.diagOversize = false ∧
    ((i = .hdrAcc x ∨ i = .payAcc x ∨ i = .ckFirst x) → t.sync.phase = s.sync.phase) ∧
    ((i = .ss2Hit ∨ i = .hdrAcc x ∨ i = .payAcc x ∨ i = .payLast x ∨ i = .ckFirst x) →
      t.sync.expectedLen = s.sync.expectedLen)

/-- R101, R141, R90, R93, R64, R66, R150: what stores nothing leaves every element, and so every index, as it was. -/
def Obligations.NonStoringOperationsKeepTheElements : Prop :=
  ∀ (s t : State) (i : Instr),
    ((∃ x, i = .ss1Skip x) ∨ i = .idle ∨ (∃ bs, i = .checksum bs) ∨ (∃ bs a b, i = .verify bs a b) ∨
      (∃ lo hi, i = .le16 lo hi) ∨ (∃ p o w sg, i = .field p o w sg) ∨ ∃ c d p, i = .frame c d p) →
    exec i s = .next t →
    t.sync = s.sync ∧ (∀ a, Memory.read t.sync.buf a = Memory.read s.sync.buf a) ∧ t.cfg = s.cfg ∧ t.input = s.input ∧
      t.out.emission = none ∧ t.out.diagOversize = false

/-- R29, R185: no operation changes the configuration. The rest is the model's choice (log 1), since the stream position is
not state of the block (R26): `exec` takes no event, and a step takes the first event of the list, a byte, a poll, a
reset or a call, and none when the list is empty. -/
def Obligations.StepsKeepCfgAndTakeOneEvent : Prop :=
  (∀ (i : Instr) (s t : State), exec i s = .next t → t.cfg = s.cfg ∧ t.input = s.input) ∧
  ∀ s t : State, step s = .next t → t.cfg = s.cfg ∧ t.input = s.input.tail

/-! ## Invariants -/

/-- R25: every step keeps the invariant, from every state that meets it. -/
def Obligations.EveryStepKeepsInvariant : Prop :=
  ∀ s t : State, StateInv s → step s = .next t → StateInv t

/-- R140, R183: under R25 every well-formed event has a next state; nothing is refused. That a call is an event, and which
are well formed, is the model's (logs 13 and 14). -/
def Obligations.StepAnswersEveryEvent : Prop :=
  ∀ (s : State) (e : Event), StateInv s → e.wellFormed = true → ∃ t, stepEvent e s = .next t ∧ StateInv t

/-- R22: every operation keeps the buffer canonical, also outside R25. -/
def Obligations.OperationsKeepBufferCanonical : Prop :=
  ∀ (i : Instr) (s t : State), Memory.wf s.sync.buf = true → exec i s = .next t → Memory.wf t.sync.buf = true

/-- R25, R22, R27: `|buf| <= 6 + L + 1 <= MAX_FRAME - 1`, and `count` is what `phase`, `|buf|` and L say. -/
def Obligations.BufferFillIsBounded : Prop :=
  ∀ s : State, StateInv s →
    s.sync.buf.length ≤ 6 + s.sync.expectedLen.toNat + 1 ∧
    6 + s.sync.expectedLen.toNat + 1 ≤ s.cfg.maxFrame - 1 ∧
    s.sync.count.toNat =
      (match s.sync.phase with
       | .seekSync1 => 0
       | .seekSync2 => 0
       | .readHeader => s.sync.buf.length - 2
       | .readPayload => s.sync.buf.length - 6
       | .readChecksum => s.sync.buf.length - 6 - s.sync.expectedLen.toNat)

/-- R47: under R25 the sync pair stands at indices 0 and 1, and in the last two phases the length at 4 and 5 is L. -/
def Obligations.BufferIndexMap : Prop :=
  ∀ s : State, StateInv s →
    (s.sync.phase ≠ .seekSync1 → Memory.read s.sync.buf 0 = some 0xB5) ∧
    (s.sync.phase ≠ .seekSync1 → s.sync.phase ≠ .seekSync2 → Memory.read s.sync.buf 1 = some 0x62) ∧
    (s.sync.phase = .readPayload ∨ s.sync.phase = .readChecksum →
      bufRead s.sync.buf 4 2 = some s.sync.expectedLen.toNat) ∧
    ∀ a, s.cfg.maxFrame - 1 ≤ a → Memory.read s.sync.buf a = none

/-! ## Decode and encode -/

/-- R71, R68: an operation is decoded exactly where its table row holds, and its word is the byte. -/
def Obligations.DecodeEncodeAgree : Prop :=
  ∀ (s : State) (x : Byte) (i : Instr), StateInv s →
    (decodeByte s x = .ok i ↔ encode i = [x] ∧ i.wellFormed = true ∧ selectedByRow s x i = true)

/-- R68: the rows are mutually exclusive and together exhaustive. -/
def Obligations.ExactlyOneRowHolds : Prop :=
  ∀ (s : State) (x : Byte), StateInv s →
    ∃ i, decodeByte s x = .ok i ∧ (stepCandidates x).filter (selectedByRow s x) = [i]

/-- R141, R191, log 13: the instructions without a word come back from their event. -/
def Obligations.WordlessInstructionsComeBack : Prop :=
  ∀ (s : State) (i : Instr), encode i = [] → decodeEvent s (encodeEvent i) = .ok i

/-- The model's choice (log 10): a step operation runs only where R68 selects it. -/
def Obligations.OperationsRunOnlyWhereSelected : Prop :=
  ∀ (s t : State) (i : Instr) (x : Byte), StateInv s → encode i = [x] → exec i s = .next t → decodeByte s x = .ok i

/-! ## Outputs -/

/-- R143, R186, R133: which operations raise the strobe, which emit, and that an emitting step ends in RESET_STATE. The strobe
is the spec's own choice, which a model may drop (R186, R168, D8, log 21). -/
def Obligations.OutputsOfAStep : Prop :=
  ∀ (i : Instr) (s t : State), exec i s = .next t →
    (t.out.diagOversize = true ↔ ∃ x, i = .hdrOversize x) ∧
    (t.out.emission.isSome = true ↔ ∃ x, i = .ckFail x ∨ i = .ckOkDecoded x ∨ i = .ckOkUnknown x) ∧
    ((t.out.emission.isSome = true ∨ t.out.diagOversize = true) → t.sync = Sync.reset) ∧
    ¬(t.out.emission.isSome = true ∧ t.out.diagOversize = true)

/-- R144, R145, R161, R34: the offered ports in the step of a record (the spec's own binding, D4, D13); 0 for `out_kind` in
every other step is the model's (log 17). -/
def Obligations.PortsOfAStep : Prop :=
  ∀ (i : Instr) (s t : State), exec i s = .next t →
    inReady t = true ∧
    outKind t = (match i with
      | .ckOkDecoded _ => 1
      | .ckOkUnknown _ => 2
      | .ckFail _ => 3
      | _ => 0) ∧
    (outValid t = true → outClass t = Memory.read s.sync.buf 2 ∧ outId t = Memory.read s.sync.buf 3 ∧
      outLen t = some s.sync.expectedLen)

/-- R161 with the model's diagnostic (log 8): the condition code each operation raises. -/
def Obligations.ConditionCodesRaised : Prop :=
  ∀ (i : Instr) (s t : State), exec i s = .next t →
    Condition.code t.out.condition = (match i with
      | .ckOkUnknown _ => 1
      | .ckFail _ => 2
      | .hdrOversize _ => 3
      | .ss2Miss _ => 4
      | .ss1Skip _ => 4
      | .ss2Restart => 4
      | _ => 0)

/-- R33, R174, R172: a run depends on the four elements and the configuration alone, not on what was presented before. -/
def Obligations.RunsDependOnElementsAlone : Prop :=
  ∀ (s s' : State) (es : List Event) (t : State) (os : List Outputs), s'.sync = s.sync → s'.cfg = s.cfg →
    RunsTo s es t os → ∃ t', RunsTo s' es t' os ∧ t'.sync = t.sync ∧ t'.cfg = t.cfg

/-- R172, R129: after each condition and each decoded frame the instance behaves as a fresh one, whatever happened before. -/
def Obligations.FreshAfterEveryEnd : Prop :=
  ∀ (s t : State) (e : Event) (i : Instr) (x : Byte), decodeEvent s e = .ok i →
    (i = .ss2Miss x ∨ i = .hdrOversize x ∨ i = .ckFail x ∨ i = .ckOkDecoded x ∨ i = .ckOkUnknown x) →
    stepEvent e s = .next t →
    t.sync = Sync.reset ∧ ∀ (es : List Event) (u : State) (os : List Outputs), RunsTo (State.resetWith s.cfg) es u os →
      ∃ u', RunsTo t es u' os ∧ u'.sync = u.sync

/-! ## Runs -/

/-- R142: runs compose. -/
def Obligations.RunsCompose : Prop :=
  ∀ (s t u : State) (es fs : List Event) (os ps : List Outputs),
    RunsTo s es t os → RunsTo t fs u ps → RunsTo s (es ++ fs) u (os ++ ps)

/-- R142, R141: polls inserted anywhere change neither the states nor the outputs at the byte steps (the spec's own choices
D5, D17, log 21). That calls change them no more than polls is the model's own clause (log 13). -/
def Obligations.InsertedPollsChangeNothing : Prop :=
  ∀ (s t : State) (es : List Event) (os : List Outputs), RunsTo s es t os →
    let fs := es.filter fun e => Event.deliversByte e || Event.assertsRst e
    ∃ t' ps, RunsTo s fs t' ps ∧ t'.sync = t.sync ∧ byteOutputs es os = byteOutputs fs ps ∧
      emissions os = emissions ps

/-- The host's run of k steps is the run of R142 over the first k events of the caller's list; the list is
the model's (log 1). -/
def Obligations.HostRunIsTheRun : Prop :=
  ∀ (s t : State) (es rest : List Event) (os : List Outputs), RunsTo s es t os →
    Host.Core.run Sys2Proof.core es.length { s with input := es ++ rest } = .next { t with input := rest }

/-- R151, R105: a stream without an adjacent 0xB5, 0x62 emits nothing and ends in SeekSync2 exactly after a 0xB5. -/
def Obligations.NoSyncPairEmitsNothing : Prop :=
  ∀ (s : State) (bs : List Byte), s.cfg.wf = true → s.sync = Sync.reset → hasSyncPair bs = false →
    ∃ t os, feedBytes s bs = .next (t, os) ∧ emissions os = [] ∧ strobes os = [] ∧
      t.sync.phase = (if bs.getLast? = some 0xB5 then .seekSync2 else .seekSync1) ∧ t.sync.wf t.cfg = true

/-- R152: a frame yields exactly one record, at its last byte, and the run ends in RESET_STATE. The record (`validRecord`)
rests on two's complement for signed fields (log 6), on the raw payload of an unknown message (D9, log 21) and on a payload
too short for its layout being unknown (D11, log 21). -/
def Obligations.FrameYieldsItsRecord : Prop :=
  ∀ (s : State) (cls id : Byte) (p : List Byte), s.cfg.wf = true → s.sync = Sync.reset →
    p.length ≤ s.cfg.maxPayload →
    ∃ t os em, feedBytes s (frame s.cfg.ckMod cls id p) = .next (t, os) ∧ validRecord s.cfg cls id p = some em ∧
      emissions os = [em] ∧ os.getLast?.bind Outputs.emission = some em ∧ strobes os = [] ∧ t.sync = Sync.reset

/-- R152: a frame over MAX_PAYLOAD raises the strobe at its sixth byte and nothing is emitted for those six
(the spec's own choices D8, D16, log 21). -/
def Obligations.OversizeFrameStrobesAtSixthByte : Prop :=
  ∀ (s : State) (cls id : Byte) (p : List Byte), s.cfg.wf = true → s.sync = Sync.reset →
    s.cfg.maxPayload < p.length → p.length ≤ 65535 →
    ∃ t os, feedBytes s ((frame s.cfg.ckMod cls id p).take 6) = .next (t, os) ∧ emissions os = [] ∧ strobes os = [5] ∧
      t.sync = Sync.reset

/-- R154, R155: two frames with garbage without a sync pair between them (or none) yield their two records in order. The
records (`validRecord`) rest on log 6 and on D9 and D11 (log 21). -/
def Obligations.GarbageBetweenFramesIsLossless : Prop :=
  ∀ (s : State) (cls id cls' id' : Byte) (p q g : List Byte), s.cfg.wf = true → s.sync = Sync.reset →
    p.length ≤ s.cfg.maxPayload → q.length ≤ s.cfg.maxPayload → hasSyncPair g = false →
    ∃ t os e f, feedBytes s (frame s.cfg.ckMod cls id p ++ g ++ frame s.cfg.ckMod cls' id' q) = .next (t, os) ∧
      validRecord s.cfg cls id p = some e ∧ validRecord s.cfg cls' id' q = some f ∧ emissions os = [e, f] ∧
      strobes os = [] ∧ t.sync = Sync.reset

/-- R153: one corrupted payload byte under stale checksum bytes is a ChecksumError, always for 256, and for 255 but for the
pair 0x00, 0xFF. That `expected` is the computed pair and `actual` the received one is the spec's own choice (D7, log 21). -/
def Obligations.CorruptedByteIsAChecksumError : Prop :=
  ∀ (s : State) (cls id v w : Byte) (p q : List Byte), s.cfg.wf = true → s.sync = Sync.reset →
    p.length + 1 + q.length ≤ s.cfg.maxPayload → v ≠ w →
    (s.cfg.ckMod = 256 ∨ s.cfg.ckMod = 255 ∧ ¬(v = 0x00 ∧ w = 0xFF) ∧ ¬(v = 0xFF ∧ w = 0x00)) →
    let ck := checksum s.cfg.ckMod (frameBody cls id (p ++ [v] ++ q))
    ∃ t os, feedBytes s (frameCk cls id (p ++ [w] ++ q) ck.1 ck.2) = .next (t, os) ∧
      emissions os = [.checksumError cls id (checksum s.cfg.ckMod (frameBody cls id (p ++ [w] ++ q))) ck] ∧
      t.sync = Sync.reset

/-- R117, R133, R175: after SS2_HIT an attempt takes four header bytes and, unless oversize, L + 2 more, whatever their
values; it emits exactly once, at the last, and is in no seek phase before. The strobe of the oversize clause is the spec's own
choice (D8, log 21). -/
def Obligations.AttemptTakesItsDeclaredBytes : Prop :=
  ∀ (s : State) (cls id lo hi : Byte) (bs : List Byte), s.cfg.wf = true →
    s.sync = { phase := .readHeader, buf := Memory.ofBytes [0xB5, 0x62], expectedLen := 0, count := 0 } →
    if s.cfg.maxPayload < lo.toNat + 256 * hi.toNat then
      ∃ t os, feedBytes s [cls, id, lo, hi] = .next (t, os) ∧ emissions os = [] ∧ strobes os = [3] ∧ t.sync = Sync.reset
    else
      (bs.length = lo.toNat + 256 * hi.toNat + 2 →
        ∃ t os, feedBytes s ([cls, id, lo, hi] ++ bs) = .next (t, os) ∧ (emissions os).length = 1 ∧
          (os.getLast?.bind Outputs.emission).isSome = true ∧ strobes os = [] ∧ t.sync = Sync.reset) ∧
      (bs.length < lo.toNat + 256 * hi.toNat + 2 →
        ∃ t os, feedBytes s ([cls, id, lo, hi] ++ bs) = .next (t, os) ∧ emissions os = [] ∧ strobes os = [] ∧
          (t.sync.phase = .readPayload ∨ t.sync.phase = .readChecksum))

/-! ## The Checksum Engine and the operand forms -/

/-- R90: the recurrence from a = b = 0, `b` with the new `a`, both results in 0..M-1; and its corner cases: zero bytes give
(0, 0), and the order of the bytes matters for `b` and not for `a`. -/
def Obligations.ChecksumRecurrence : Prop :=
  ∀ m : Nat, 2 ≤ m → m ≤ 256 →
    checksum m [] = (0, 0) ∧ (∀ n : Nat, checksum m (List.replicate n 0x00) = (0, 0)) ∧
    (∀ s s' : List Byte, s.Perm s' → (checksum m s).1 = (checksum m s').1) ∧
    (checksum m [0x00, 0x01]).2 ≠ (checksum m [0x01, 0x00]).2 ∧
    ∀ (s : List Byte) (x : Byte),
      (checksum m (s ++ [x])).1.toNat = ((checksum m s).1.toNat + x.toNat) % m ∧
      (checksum m (s ++ [x])).2.toNat = ((checksum m s).2.toNat + (checksum m (s ++ [x])).1.toNat) % m ∧
      (checksum m s).1.toNat < m ∧ (checksum m s).2.toNat < m

/-- R94: the closed form; byte k of n has weight n - k in `b`. -/
def Obligations.ChecksumClosedForm : Prop :=
  ∀ (m : Nat) (bs : List Byte), 2 ≤ m → m ≤ 256 →
    (checksum m bs).1.toNat = (bs.map BitVec.toNat).sum % m ∧
    (checksum m bs).2.toNat = ((bs.zipIdx.map fun xk => (bs.length - xk.2) * xk.1.toNat).sum) % m

/-- R93, R95: the computed pair verifies and no other does, so a received byte of M or more never verifies. -/
def Obligations.VerifyAcceptsExactlyTheChecksum : Prop :=
  ∀ (m : Nat) (bs : List Byte) (a b : Byte), 2 ≤ m → m ≤ 256 →
    verify m bs (checksum m bs).1 (checksum m bs).2 = true ∧ verify m [] 0 0 = true ∧
    (verify m bs a b = true → (checksum m bs).1 = a ∧ (checksum m bs).2 = b) ∧
    (m ≤ a.toNat ∨ m ≤ b.toNat → verify m bs a b = false)

/-- R96: under 255 a byte 0x00 replaced by 0xFF changes nothing and any other single replacement changes `a`; under 256
every single replacement changes `a`. -/
def Obligations.SingleByteAliasing : Prop :=
  ∀ (p q : List Byte) (v w : Byte), v ≠ w →
    (checksum 255 (p ++ [0x00] ++ q) = checksum 255 (p ++ [0xFF] ++ q)) ∧
    (¬(v = 0x00 ∧ w = 0xFF) → ¬(v = 0xFF ∧ w = 0x00) →
      (checksum 255 (p ++ [v] ++ q)).1 ≠ (checksum 255 (p ++ [w] ++ q)).1) ∧
    (checksum 256 (p ++ [v] ++ q)).1 ≠ (checksum 256 (p ++ [w] ++ q)).1

/-- R76, R96: under 255 a frame with a 0xFF checksum byte always ends in CK_FAIL. -/
def Obligations.FfChecksumByteFailsUnder255 : Prop :=
  ∀ (s : State) (x : Byte), StateInv s → s.cfg.ckMod = 255 → s.sync.phase = .readChecksum → s.sync.count = 1 →
    (Memory.read s.sync.buf (6 + s.sync.expectedLen.toNat) = some 0xFF ∨ x = 0xFF) →
    decodeByte s x = .ok (.ckFail x)

/-- R64, R82, R40: the length is lenLo + 256 * lenHi, below 65536, and is what `BufRead(4, 2)` reads. -/
def Obligations.LengthIsLittleEndian : Prop :=
  ∀ (lo hi : Byte) (m : Memory), Memory.wf m = true → Memory.read m 4 = some lo → Memory.read m 5 = some hi →
    bufRead m 4 2 = some (lo.toNat ||| (hi.toNat <<< 8)) ∧ le16 lo hi = lo.toNat + 256 * hi.toNat ∧ le16 lo hi ≤ 65535

/-- R41: the value of a field of `w` bytes at payload offset `o` is the sum over k of `payload[o+k] << (8*k)`; it fits in
8 * w bits. -/
def Obligations.FieldIsLittleEndianSum : Prop :=
  ∀ (p : List Byte) (o w : Nat), o + w ≤ p.length →
    leNat ((p.drop o).take w) = ((List.range w).map fun k => (p.getD (o + k) 0).toNat <<< (8 * k)).sum ∧
    leNat ((p.drop o).take w) < 2 ^ (8 * w)

/-! ## Instances -/

/-- R149, R180: a step of one instance leaves every other as it was; the list of instances is the model's form (log 18). -/
def Obligations.InstancesAreIndependent : Prop :=
  ∀ (k : Nat) (sys sys' : List State), stepInstance k sys = .next sys' →
    sys'.length = sys.length ∧ (∀ j, j ≠ k → sys'[j]? = sys[j]?) ∧
    ∀ s, sys[k]? = some s → ∃ t, step s = .next t ∧ sys'[k]? = some t
end

