-- ==== Sys2Proof/Laws/Memory.lean ====
section
/-! SUPPORT. The scratch buffer: a canonical buffer is the byte sequence it holds, every operation keeps the canonical
form, and what reads give after an append. -/

namespace Sys2Proof.Machine

@[simp] theorem Memory.bytes_nil : Memory.bytes [] = [] := rfl

@[simp] theorem Memory.length_bytes (m : Memory) : (Memory.bytes m).length = m.length := by
  simp [Memory.bytes]

@[simp] theorem Memory.bytes_ofBytesFrom (a : Nat) (bs : List Byte) :
    Memory.bytes (Memory.ofBytesFrom a bs) = bs := by
  induction bs generalizing a with
  | nil => rfl
  | cons b bs ih => simpa [Memory.ofBytesFrom, Memory.bytes] using ih (a + 1)

@[simp] theorem Memory.bytes_ofBytes (bs : List Byte) : Memory.bytes (Memory.ofBytes bs) = bs :=
  Memory.bytes_ofBytesFrom 0 bs

@[simp] theorem Memory.length_ofBytes (bs : List Byte) : (Memory.ofBytes bs).length = bs.length := by
  rw [← Memory.length_bytes, Memory.bytes_ofBytes]

theorem Memory.wfFrom_ofBytesFrom (a : Nat) (bs : List Byte) :
    Memory.wfFrom a (Memory.ofBytesFrom a bs) = true := by
  induction bs generalizing a with
  | nil => rfl
  | cons b bs ih => simpa [Memory.ofBytesFrom, Memory.wfFrom] using ih (a + 1)

/-- Storing a byte sequence gives a canonical buffer. -/
@[simp] theorem Memory.wf_ofBytes (bs : List Byte) : Memory.wf (Memory.ofBytes bs) = true :=
  Memory.wfFrom_ofBytesFrom 0 bs

theorem Memory.ofBytesFrom_bytes {a : Nat} {m : Memory} (h : Memory.wfFrom a m = true) :
    Memory.ofBytesFrom a (Memory.bytes m) = m := by
  induction m generalizing a with
  | nil => rfl
  | cons c m ih =>
    obtain ⟨i, b⟩ := c
    simp only [Memory.wfFrom, Bool.and_eq_true, beq_iff_eq] at h
    obtain ⟨rfl, hm⟩ := h
    simpa [Memory.ofBytesFrom, Memory.bytes] using ih hm

/-- A canonical buffer is determined by the bytes it holds. -/
theorem Memory.ofBytes_bytes {m : Memory} (h : Memory.wf m = true) : Memory.ofBytes (Memory.bytes m) = m :=
  Memory.ofBytesFrom_bytes h

theorem Memory.ofBytesFrom_append (a : Nat) (bs : List Byte) (x : Byte) :
    Memory.ofBytesFrom a bs ++ [(a + bs.length, x)] = Memory.ofBytesFrom a (bs ++ [x]) := by
  induction bs generalizing a with
  | nil => rfl
  | cons b bs ih =>
    have h := ih (a + 1)
    rw [show a + 1 + bs.length = a + (bs.length + 1) by omega] at h
    simp [Memory.ofBytesFrom, h]

/-- The canonical form is strictly rising in the index. -/
theorem Memory.wfFrom_rising {a : Nat} {m : Memory} (h : Memory.wfFrom a m = true) :
    (m.map Prod.fst).Pairwise (· < ·) ∧ ∀ c ∈ m, a ≤ c.1 := by
  induction m generalizing a with
  | nil => simp
  | cons c m ih =>
    simp only [Memory.wfFrom, Bool.and_eq_true, beq_iff_eq] at h
    obtain ⟨rfl, hm⟩ := h
    obtain ⟨hp, hb⟩ := ih hm
    refine ⟨?_, ?_⟩
    · simp only [List.map_cons, List.pairwise_cons, List.mem_map, forall_exists_index, and_imp]
      refine ⟨?_, hp⟩
      rintro b d hd rfl
      exact hb d hd
    · rintro d hd
      rcases List.mem_cons.1 hd with rfl | hd
      · exact Nat.le_refl _
      · exact Nat.le_of_succ_le (hb d hd)

/-- `BufAppend` on the buffer that holds `bs`: below the capacity it holds `bs ++ [x]`, at the capacity it is refused. -/
theorem Memory.append_ofBytes (cap : Nat) (bs : List Byte) (x : Byte) :
    Memory.append cap (Memory.ofBytes bs) x = if bs.length < cap then some (Memory.ofBytes (bs ++ [x])) else none := by
  have h := Memory.ofBytesFrom_append 0 bs x
  rw [Nat.zero_add] at h
  simp only [Memory.append, Memory.length_ofBytes]
  split
  · rw [Memory.ofBytes, h, Memory.ofBytes]
  · rfl

/-- What `BufAppend` can do to a canonical buffer, said once. -/
theorem Memory.append_some {cap : Nat} {m m' : Memory} {x : Byte} (h : Memory.wf m = true)
    (ha : Memory.append cap m x = some m') :
    m.length < cap ∧ m' = Memory.ofBytes (Memory.bytes m ++ [x]) := by
  rw [← Memory.ofBytes_bytes h, Memory.append_ofBytes] at ha
  split at ha
  · rename_i hc
    rw [Memory.length_bytes] at hc
    exact ⟨hc, (Option.some.inj ha).symm⟩
  · cases ha

/-- An append below the capacity succeeds. -/
theorem Memory.append_of_lt {cap : Nat} {m : Memory} (x : Byte) (h : Memory.wf m = true) (hc : m.length < cap) :
    Memory.append cap m x = some (Memory.ofBytes (Memory.bytes m ++ [x])) := by
  conv => lhs; rw [← Memory.ofBytes_bytes h]
  rw [Memory.append_ofBytes, Memory.length_bytes, if_pos hc]

/-- An append keeps the canonical form. -/
theorem Memory.append_keeps_wf {cap : Nat} {m m' : Memory} {x : Byte} (h : Memory.wf m = true)
    (ha : Memory.append cap m x = some m') : Memory.wf m' = true := by
  rw [(Memory.append_some h ha).2, Memory.wf_ofBytes]

theorem Memory.read_ofBytesFrom (a : Nat) (bs : List Byte) (i : Nat) :
    Memory.read (Memory.ofBytesFrom a bs) i = if a ≤ i then bs[i - a]? else none := by
  induction bs generalizing a with
  | nil => simp [Memory.ofBytesFrom, Memory.read]
  | cons b bs ih =>
    simp only [Memory.ofBytesFrom, Memory.read, ih]
    rcases Nat.lt_trichotomy a i with h | rfl | h
    · rw [if_neg (by omega), if_pos (by omega), if_pos (by omega), show i - a = (i - (a + 1)) + 1 by omega,
        List.getElem?_cons_succ]
    · simp
    · rw [if_neg (by omega), if_neg (by omega), if_neg (by omega)]

/-- Reading one byte of the buffer that holds `bs`. -/
@[simp] theorem Memory.read_ofBytes (bs : List Byte) (i : Nat) : Memory.read (Memory.ofBytes bs) i = bs[i]? := by
  simp [Memory.ofBytes, Memory.read_ofBytesFrom]

/-- Reading one byte of a canonical buffer. -/
theorem Memory.read_eq {m : Memory} (h : Memory.wf m = true) (i : Nat) :
    Memory.read m i = (Memory.bytes m)[i]? := by
  conv => lhs; rw [← Memory.ofBytes_bytes h]
  rw [Memory.read_ofBytes]

/-- Reading `n` bytes of the buffer that holds `bs`: all of them, or none if one lies outside. -/
theorem Memory.readN_ofBytes (bs : List Byte) (a n : Nat) :
    Memory.readN (Memory.ofBytes bs) a n =
      if a + n ≤ bs.length ∨ n = 0 then some ((bs.drop a).take n) else none := by
  induction n generalizing a with
  | zero => simp [Memory.readN]
  | succ n ih =>
    simp only [Memory.readN, Memory.read_ofBytes, ih]
    by_cases h : a + (n + 1) ≤ bs.length
    · have ha : a < bs.length := by omega
      rw [if_pos (by left; omega), if_pos (by left; omega), List.getElem?_eq_getElem ha,
        List.drop_eq_getElem_cons ha, List.take_succ_cons]
    · have hr : ¬(a + (n + 1) ≤ bs.length ∨ n + 1 = 0) := by omega
      rw [if_neg hr]
      by_cases h0 : n = 0
      · subst h0
        rw [List.getElem?_eq_none (by omega)]
      · have hl : ¬(a + 1 + n ≤ bs.length ∨ n = 0) := by omega
        rw [if_neg hl]
        cases bs[a]? <;> rfl

/-- Reading `n` bytes of a canonical buffer that holds them. -/
theorem Memory.readN_eq {m : Memory} (h : Memory.wf m = true) {a n : Nat} (hn : a + n ≤ m.length) :
    Memory.readN m a n = some (((Memory.bytes m).drop a).take n) := by
  conv => lhs; rw [← Memory.ofBytes_bytes h]
  rw [Memory.readN_ofBytes, Memory.length_bytes, if_pos (Or.inl hn)]

/-- Read after append: the new byte at the old fill index, every other index as before. -/
theorem Memory.read_append {cap : Nat} {m m' : Memory} {x : Byte} (h : Memory.wf m = true)
    (ha : Memory.append cap m x = some m') (i : Nat) :
    Memory.read m' i = if i = m.length then some x else Memory.read m i := by
  rw [(Memory.append_some h ha).2, Memory.read_ofBytes, Memory.read_eq h]
  rcases Nat.lt_trichotomy i m.length with hi | rfl | hi
  · rw [if_neg (by omega), List.getElem?_append_left (by simpa using hi)]
  · rw [if_pos rfl, List.getElem?_append_right (by simp)]
    simp
  · rw [if_neg (by omega), List.getElem?_eq_none (by simp; omega), List.getElem?_eq_none (by simp; omega)]

end Sys2Proof.Machine
end

