-- ==== Sys2Proof/Laws/State.lean ====
section
/-! SUPPORT. One lemma per field per update of the state, true by rfl, so that no proof unfolds a record update. -/

namespace Sys2Proof.Machine

section
variable (s : State) (sy : Sync) (c : Condition) (em : Option Emission) (oc : Option Condition) (v : Value) (e : Event)

@[simp] theorem quietly_sync : (quietly s sy).sync = sy := rfl
@[simp] theorem quietly_cfg : (quietly s sy).cfg = s.cfg := rfl
@[simp] theorem quietly_input : (quietly s sy).input = s.input := rfl
@[simp] theorem quietly_out : (quietly s sy).out = Outputs.quiet := rfl

@[simp] theorem noting_sync : (noting c s).sync = s.sync := rfl
@[simp] theorem noting_cfg : (noting c s).cfg = s.cfg := rfl
@[simp] theorem noting_input : (noting c s).input = s.input := rfl
@[simp] theorem noting_emission : (noting c s).out.emission = s.out.emission := rfl
@[simp] theorem noting_outLen : (noting c s).out.outLen = s.out.outLen := rfl
@[simp] theorem noting_diagOversize : (noting c s).out.diagOversize = s.out.diagOversize := rfl
@[simp] theorem noting_value : (noting c s).out.value = s.out.value := rfl
@[simp] theorem noting_condition : (noting c s).out.condition = some c := rfl

@[simp] theorem resetToSeek_sync : (resetToSeek s).sync = Sync.reset := rfl
@[simp] theorem resetToSeek_cfg : (resetToSeek s).cfg = s.cfg := rfl
@[simp] theorem resetToSeek_input : (resetToSeek s).input = s.input := rfl
@[simp] theorem resetToSeek_out : (resetToSeek s).out = s.out := rfl

@[simp] theorem endAttempt_sync : (endAttempt em oc s).sync = Sync.reset := rfl
@[simp] theorem endAttempt_cfg : (endAttempt em oc s).cfg = s.cfg := rfl
@[simp] theorem endAttempt_input : (endAttempt em oc s).input = s.input := rfl
@[simp] theorem endAttempt_emission : (endAttempt em oc s).out.emission = em := rfl
@[simp] theorem endAttempt_outLen :
    (endAttempt em oc s).out.outLen = em.map fun _ => s.sync.expectedLen := rfl
@[simp] theorem endAttempt_diagOversize : (endAttempt em oc s).out.diagOversize = Condition.strobe oc := rfl
@[simp] theorem endAttempt_condition : (endAttempt em oc s).out.condition = oc := rfl
@[simp] theorem endAttempt_value : (endAttempt em oc s).out.value = none := rfl

theorem raise_eq_endAttempt : raise c em s = endAttempt em (some c) s := rfl
@[simp] theorem raise_sync : (raise c em s).sync = Sync.reset := rfl
@[simp] theorem raise_cfg : (raise c em s).cfg = s.cfg := rfl
@[simp] theorem raise_input : (raise c em s).input = s.input := rfl
@[simp] theorem raise_emission : (raise c em s).out.emission = em := rfl
@[simp] theorem raise_outLen : (raise c em s).out.outLen = em.map fun _ => s.sync.expectedLen := rfl
@[simp] theorem raise_diagOversize : (raise c em s).out.diagOversize = Condition.strobe (some c) := rfl
@[simp] theorem raise_condition : (raise c em s).out.condition = some c := rfl
@[simp] theorem raise_value : (raise c em s).out.value = none := rfl

@[simp] theorem delivering_sync : (delivering v s).sync = s.sync := rfl
@[simp] theorem delivering_cfg : (delivering v s).cfg = s.cfg := rfl
@[simp] theorem delivering_input : (delivering v s).input = s.input := rfl
@[simp] theorem delivering_emission : (delivering v s).out.emission = none := rfl
@[simp] theorem delivering_outLen : (delivering v s).out.outLen = none := rfl
@[simp] theorem delivering_diagOversize : (delivering v s).out.diagOversize = false := rfl
@[simp] theorem delivering_condition : (delivering v s).out.condition = none := rfl
@[simp] theorem delivering_value : (delivering v s).out.value = some v := rfl

@[simp] theorem deliver_sync : (deliver e s).sync = s.sync := rfl
@[simp] theorem deliver_cfg : (deliver e s).cfg = s.cfg := rfl
@[simp] theorem deliver_input : (deliver e s).input = e :: s.input := rfl
@[simp] theorem deliver_out : (deliver e s).out = s.out := rfl
@[simp] theorem fetch_deliver : fetch (deliver e s) = (e, s) := rfl

@[simp] theorem quiet_emission : Outputs.quiet.emission = none := rfl
@[simp] theorem quiet_outLen : Outputs.quiet.outLen = none := rfl
@[simp] theorem quiet_diagOversize : Outputs.quiet.diagOversize = false := rfl
@[simp] theorem quiet_condition : Outputs.quiet.condition = none := rfl
@[simp] theorem quiet_value : Outputs.quiet.value = none := rfl

@[simp] theorem reset_phase : Sync.reset.phase = .seekSync1 := rfl
@[simp] theorem reset_buf : Sync.reset.buf = [] := rfl
@[simp] theorem reset_expectedLen : Sync.reset.expectedLen = 0 := rfl
@[simp] theorem reset_count : Sync.reset.count = 0 := rfl

@[simp] theorem strobe_oversize (cls id : Byte) (l : Half) :
    Condition.strobe (some (.oversizePayload cls id l)) = true := rfl
@[simp] theorem strobe_none : Condition.strobe none = false := rfl
@[simp] theorem strobe_syncLost : Condition.strobe (some .syncLost) = false := rfl
@[simp] theorem strobe_checksumMismatch : Condition.strobe (some .checksumMismatch) = false := rfl
@[simp] theorem strobe_unknownMessageType : Condition.strobe (some .unknownMessageType) = false := rfl
end

end Sys2Proof.Machine
end

