-- ==== Sys2Proof/Laws/Ops.lean ====
section
/-! SUPPORT. What each shared operation can answer, said once. -/

namespace Sys2Proof.Machine

/-- Two next states, the later name first: the form the inversion lemmas end in. -/
theorem next_eq_next {a b : State} :
    (Host.Outcome.next a : Host.Outcome State Fault Refusal) = .next b ↔ b = a :=
  ⟨fun h => by cases h; rfl, fun h => by rw [h]⟩

/-- A guarded meaning answers a next state only where its guard holds. -/
theorem whenOperands_next {b : Bool} {o : Host.Outcome State Fault Refusal} {t : State} :
    whenOperands b o = .next t ↔ b = true ∧ o = .next t := by
  cases b <;> simp [whenOperands]

@[simp] theorem whenOperands_true (o : Host.Outcome State Fault Refusal) : whenOperands true o = o := rfl

theorem whenOperands_of {b : Bool} (h : b = true) (o : Host.Outcome State Fault Refusal) : whenOperands b o = o := by
  rw [h, whenOperands_true]

/-- A storing step answers a next state exactly when the append succeeds, and then changes only the elements. -/
theorem storing_next {s t : State} {x : Byte} {upd : Sync → Sync} :
    storing s x upd = .next t ↔
      ∃ m, Memory.append s.cfg.maxFrame s.sync.buf x = some m ∧ t = quietly s (upd { s.sync with buf := m }) := by
  unfold storing
  cases h : Memory.append s.cfg.maxFrame s.sync.buf x <;> simp [eq_comm]

/-- A storing step on a canonical buffer below the capacity. -/
theorem storing_of_lt {s : State} (x : Byte) (upd : Sync → Sync) (h : Memory.wf s.sync.buf = true)
    (hc : s.sync.buf.length < s.cfg.maxFrame) :
    storing s x upd =
      .next (quietly s (upd { s.sync with buf := Memory.ofBytes (Memory.bytes s.sync.buf ++ [x]) })) := by
  rw [storing, Memory.append_of_lt x h hc]

/-- The step consumes the head of the list, and nothing when the list is empty. -/
theorem fetch_cases (s : State) :
    (s.input = [] ∧ fetch s = (.idle, s)) ∨
      ∃ e rest, s.input = e :: rest ∧ fetch s = (e, { s with input := rest }) := by
  unfold fetch
  cases h : s.input with
  | nil => exact Or.inl ⟨rfl, rfl⟩
  | cons e rest => exact Or.inr ⟨e, rest, rfl, rfl⟩

end Sys2Proof.Machine
end

