-- ==== Sys2Proof/Laws/Operands.lean ====
section
/-! SUPPORT. What the operand forms and the layout lookup give. -/

namespace Sys2Proof.Machine

/-- Lnew from a canonical buffer that holds index 4. -/
theorem lenNew_eq {m : Memory} (h : Memory.wf m = true) (x : Byte) :
    lenNew m x = (Memory.bytes m)[4]?.map fun lo => le16 lo x := by
  rw [lenNew, Memory.read_eq h]

/-- The 16-bit value with `hi` above `lo` is the assembled length. -/
theorem append_toNat_eq_le16 (lo hi : Byte) : (hi ++ lo : BitVec 16).toNat = le16 lo hi := by
  rw [le16, BitVec.toNat_append, Nat.or_comm]

/-- An assembled length is a 16-bit value. -/
theorem le16_lt (lo hi : Byte) : le16 lo hi < 2 ^ 16 := by
  rw [← append_toNat_eq_le16]
  exact BitVec.isLt _

/-- Storing an assembled length in `expected_len` loses nothing. -/
theorem ofNat_le16 (lo hi : Byte) : BitVec.ofNat 16 (le16 lo hi) = hi ++ lo := by
  rw [← append_toNat_eq_le16, BitVec.ofNat_toNat, BitVec.setWidth_eq]

/-- What the CK_B step reads of a buffer of R25's shape (R121). -/
theorem ckView_of_shape {s : Sync} {y1 y2 cls id lo hi ckA : Byte} {p : List Byte}
    (hs : s.buf = Memory.ofBytes ([y1, y2, cls, id, lo, hi] ++ p ++ [ckA])) (hl : p.length = s.expectedLen.toNat) :
    ckView s = some { cls := cls, id := id, span := [cls, id, lo, hi] ++ p, payload := p, ckA := ckA } := by
  simp only [ckView, hs, Memory.read_ofBytes, Memory.readN_ofBytes, ← hl]
  have h1 : 2 + (4 + p.length) ≤ ([y1, y2, cls, id, lo, hi] ++ p ++ [ckA]).length := by simp; omega
  have h2 : 6 + p.length ≤ ([y1, y2, cls, id, lo, hi] ++ p ++ [ckA]).length := by simp; omega
  rw [if_pos (Or.inl h1), if_pos (Or.inl h2)]
  simp [Nat.add_comm 4, Nat.add_comm 6]

/-- `min_len` is the least length that holds every field (R67). -/
theorem minLen_le_iff (l : Layout) (n : Nat) : minLen l ≤ n ↔ ∀ f ∈ l, f.offset + f.width ≤ n := by
  induction l with
  | nil => simp [minLen]
  | cons f l ih => simp [minLen, ih]

/-- The layout `usableLayout` gives (R124). -/
theorem usableLayout_eq_some {c : Cfg} {cls id : Byte} {n : Nat} {l : Layout} :
    usableLayout c cls id n = some l ↔ c.lookup cls id = some l ∧ minLen l ≤ n := by
  unfold usableLayout
  cases c.lookup cls id with
  | none => simp
  | some l' =>
    by_cases hm : minLen l' ≤ n
    · simp only [hm, if_true, Option.some.injEq]
      exact ⟨fun h => h ▸ ⟨rfl, hm⟩, fun h => h.1⟩
    · simp only [hm, if_false, Option.some.injEq, reduceCtorEq, false_iff, not_and]
      rintro rfl
      exact hm

/-- Every field of a layout of a well-formed `Cfg` is legal (R7). -/
theorem Cfg.lookup_fields_wf {c : Cfg} (hc : c.wf = true) {cls id : Byte} {l : Layout} (h : c.lookup cls id = some l) :
    ∀ f ∈ l, f.wf = true := by
  simp only [Cfg.wf, Bool.and_eq_true, List.all_eq_true] at hc
  simp only [Cfg.lookup, Option.map_eq_some_iff] at h
  obtain ⟨e, he, rfl⟩ := h
  have hw := hc.2 e (List.mem_of_find?_eq_some he)
  simp only [layoutWf, Bool.and_eq_true, List.all_eq_true] at hw
  exact hw.1

/-- `decode_fields` on a payload that holds every field (R126). -/
theorem decodeFields_of_fit {l : Layout} {p : List Byte} (hl : ∀ f ∈ l, f.wf = true)
    (h : ∀ f ∈ l, f.offset + f.width ≤ p.length) :
    decodeFields l p =
      some (l.map fun f => (f.name, fieldValue f.signed f.width (leNat ((p.drop f.offset).take f.width)))) := by
  induction l with
  | nil => rfl
  | cons f l ih =>
    have h1 := hl f (by simp)
    have h2 := h f (by simp)
    simp only [FieldDesc.wf, Bool.and_eq_true] at h1
    have hf : fieldOf p f.offset f.width f.signed =
        some (fieldValue f.signed f.width (leNat ((p.drop f.offset).take f.width))) := by
      rw [fieldOf, if_pos]
      simp only [fieldOperandsOk, Bool.and_eq_true, h1.1, decide_eq_true_eq, true_and]
      exact h2
    simp [decodeFields, hf, ih (fun g hg => hl g (by simp [hg])) (fun g hg => h g (by simp [hg]))]

end Sys2Proof.Machine
end

