-- ==== Sys2Proof/Laws/Exec.lean ====
section
/-! SUPPORT. Everything each meaning can do, said once: when it answers a next state, and which. -/

namespace Sys2Proof.Machine

section
variable {s t : State} {x : Byte}

theorem execSs1Hit_next : execSs1Hit s = .next t ↔ s.sync.phase = .seekSync1 ∧ t = quietly s Sync.syncStarted := by
  simp only [execSs1Hit, whenOperands_next, next_eq_next, decide_eq_true_eq]

theorem execSs1Skip_next : execSs1Skip x s = .next t ↔
    (s.sync.phase = .seekSync1 ∧ x ≠ sync1) ∧ t = noting .syncLost (quietly s s.sync) := by
  simp only [execSs1Skip, whenOperands_next, next_eq_next, decide_eq_true_eq, Bool.and_eq_true, bne_iff_ne, ne_eq]

theorem execSs2Hit_next : execSs2Hit s = .next t ↔ s.sync.phase = .seekSync2 ∧
    ∃ m, Memory.append s.cfg.maxFrame s.sync.buf sync2 = some m ∧
      t = quietly s { s.sync with buf := m, phase := .readHeader, count := 0 } := by
  simp [execSs2Hit, whenOperands_next, storing_next]

theorem execSs2Restart_next : execSs2Restart s = .next t ↔
    s.sync.phase = .seekSync2 ∧ t = noting .syncLost (quietly s Sync.syncStarted) := by
  simp only [execSs2Restart, whenOperands_next, next_eq_next, decide_eq_true_eq]

theorem execSs2Miss_next : execSs2Miss x s = .next t ↔
    ((s.sync.phase = .seekSync2 ∧ x ≠ sync2) ∧ x ≠ sync1) ∧ t = raise .syncLost none s := by
  simp only [execSs2Miss, whenOperands_next, next_eq_next, decide_eq_true_eq, Bool.and_eq_true, bne_iff_ne, ne_eq]

theorem execHdrAcc_next : execHdrAcc x s = .next t ↔
    (s.sync.phase = .readHeader ∧ s.sync.count.toNat < 3) ∧
    ∃ m, Memory.append s.cfg.maxFrame s.sync.buf x = some m ∧
      t = quietly s { s.sync with buf := m, count := s.sync.count + 1 } := by
  simp [execHdrAcc, whenOperands_next, storing_next]

theorem atLenHi_next {k : Nat → Host.Outcome State Fault Refusal} : atLenHi x s k = .next t ↔
    (s.sync.phase = .readHeader ∧ s.sync.count.toNat = 3) ∧
    ∃ len, lenNew s.sync.buf x = some len ∧ k len = .next t := by
  unfold atLenHi
  rw [whenOperands_next]
  cases lenNew s.sync.buf x <;> simp

theorem execHdrLen_next : execHdrLen x s = .next t ↔
    (s.sync.phase = .readHeader ∧ s.sync.count.toNat = 3) ∧
    ∃ len, lenNew s.sync.buf x = some len ∧ (len ≤ s.cfg.maxPayload ∧ 1 ≤ len) ∧
    ∃ m, Memory.append s.cfg.maxFrame s.sync.buf x = some m ∧
      t = quietly s { phase := .readPayload, buf := m, expectedLen := BitVec.ofNat 16 len, count := 0 } := by
  simp [execHdrLen, atLenHi_next, whenOperands_next, storing_next, oversize]

theorem execHdrLenZero_next : execHdrLenZero s = .next t ↔
    (s.sync.phase = .readHeader ∧ s.sync.count.toNat = 3) ∧ lenNew s.sync.buf 0x00 = some 0 ∧
    ∃ m, Memory.append s.cfg.maxFrame s.sync.buf 0x00 = some m ∧
      t = quietly s { phase := .readChecksum, buf := m, expectedLen := 0, count := 0 } := by
  simp only [execHdrLenZero, atLenHi_next, whenOperands_next, storing_next, decide_eq_true_eq]
  refine and_congr_right fun _ => ⟨?_, ?_⟩
  · rintro ⟨len, hl, rfl, h⟩
    exact ⟨hl, h⟩
  · rintro ⟨hl, h⟩
    exact ⟨0, hl, rfl, h⟩

theorem execHdrOversize_next : execHdrOversize x s = .next t ↔
    (s.sync.phase = .readHeader ∧ s.sync.count.toNat = 3) ∧
    ∃ len, lenNew s.sync.buf x = some len ∧ s.cfg.maxPayload < len ∧
    ∃ cls id, Memory.read s.sync.buf 2 = some cls ∧ Memory.read s.sync.buf 3 = some id ∧
      t = raise (.oversizePayload cls id (BitVec.ofNat 16 len)) none s := by
  simp only [execHdrOversize, atLenHi_next, whenOperands_next, oversize, decide_eq_true_eq]
  cases Memory.read s.sync.buf 2 <;> cases Memory.read s.sync.buf 3 <;> simp [next_eq_next, -Host.Outcome.next.injEq]

theorem execPayAcc_next : execPayAcc x s = .next t ↔
    (s.sync.phase = .readPayload ∧ s.sync.count.toNat + 1 < s.sync.expectedLen.toNat) ∧
    ∃ m, Memory.append s.cfg.maxFrame s.sync.buf x = some m ∧
      t = quietly s { s.sync with buf := m, count := s.sync.count + 1 } := by
  simp [execPayAcc, whenOperands_next, storing_next]

theorem execPayLast_next : execPayLast x s = .next t ↔
    (s.sync.phase = .readPayload ∧ s.sync.count.toNat + 1 = s.sync.expectedLen.toNat) ∧
    ∃ m, Memory.append s.cfg.maxFrame s.sync.buf x = some m ∧
      t = quietly s { s.sync with buf := m, phase := .readChecksum, count := 0 } := by
  simp [execPayLast, whenOperands_next, storing_next]

theorem execCkFirst_next : execCkFirst x s = .next t ↔
    (s.sync.phase = .readChecksum ∧ s.sync.count = 0) ∧
    ∃ m, Memory.append s.cfg.maxFrame s.sync.buf x = some m ∧
      t = quietly s { s.sync with buf := m, count := 1 } := by
  simp [execCkFirst, whenOperands_next, storing_next]

theorem atCkB_next {k : CkView → Host.Outcome State Fault Refusal} : atCkB s k = .next t ↔
    (s.sync.phase = .readChecksum ∧ s.sync.count = 1) ∧ ∃ v, ckView s.sync = some v ∧ k v = .next t := by
  unfold atCkB
  rw [whenOperands_next]
  cases ckView s.sync <;> simp

theorem execCkFail_next : execCkFail x s = .next t ↔
    (s.sync.phase = .readChecksum ∧ s.sync.count = 1) ∧
    ∃ v, ckView s.sync = some v ∧ ckOk s.cfg v x = false ∧
      t = raise .checksumMismatch
        (some (.checksumError v.cls v.id (checksum s.cfg.ckMod v.span) (v.ckA, x))) s := by
  simp only [execCkFail, atCkB_next, whenOperands_next, next_eq_next, Bool.not_eq_true']

theorem execCkOkDecoded_next : execCkOkDecoded x s = .next t ↔
    (s.sync.phase = .readChecksum ∧ s.sync.count = 1) ∧
    ∃ v, ckView s.sync = some v ∧ ckOk s.cfg v x = true ∧
    ∃ l, usableLayout s.cfg v.cls v.id s.sync.expectedLen.toNat = some l ∧
    ∃ fields, decodeFields l v.payload = some fields ∧
      t = endAttempt (some (.decodedMessage v.cls v.id fields)) none s := by
  simp only [execCkOkDecoded, atCkB_next, whenOperands_next]
  refine and_congr_right fun _ => exists_congr fun v => and_congr_right fun _ => and_congr_right fun _ => ?_
  cases usableLayout s.cfg v.cls v.id s.sync.expectedLen.toNat with
  | none => simp
  | some l => cases h : decodeFields l v.payload <;> simp [h, next_eq_next, -Host.Outcome.next.injEq]

theorem execCkOkUnknown_next : execCkOkUnknown x s = .next t ↔
    (s.sync.phase = .readChecksum ∧ s.sync.count = 1) ∧
    ∃ v, ckView s.sync = some v ∧
      (ckOk s.cfg v x = true ∧ known s.cfg v.cls v.id s.sync.expectedLen.toNat = false) ∧
      t = endAttempt (some (.unknownMessage v.cls v.id v.payload)) (some .unknownMessageType) s := by
  simp only [execCkOkUnknown, atCkB_next, whenOperands_next, next_eq_next, Bool.and_eq_true, Bool.not_eq_true']

theorem execIdle_next : execIdle s = .next t ↔ t = quietly s s.sync := by
  simp only [execIdle, next_eq_next]

theorem execRst_next : execRst s = .next t ↔ t = quietly s Sync.reset := by
  simp only [execRst, next_eq_next]

theorem execChecksum_next {bs : List Byte} : execChecksum bs s = .next t ↔
    t = delivering (.pair (checksum s.cfg.ckMod bs).1 (checksum s.cfg.ckMod bs).2) s := by
  simp only [execChecksum, next_eq_next]

theorem execVerify_next {bs : List Byte} {a b : Byte} : execVerify bs a b s = .next t ↔
    t = delivering (.bool (verify s.cfg.ckMod bs a b)) s := by
  simp only [execVerify, next_eq_next]

theorem execLe16_next {lo hi : Byte} : execLe16 lo hi s = .next t ↔ t = delivering (.nat (le16 lo hi)) s := by
  simp only [execLe16, next_eq_next]

theorem execField_next {p : List Byte} {o w : Nat} {sg : Bool} : execField p o w sg s = .next t ↔
    ∃ v, fieldOf p o w sg = some v ∧ t = delivering (.int v) s := by
  unfold execField
  cases fieldOf p o w sg <;> simp [next_eq_next, -Host.Outcome.next.injEq]

theorem execFrame_next {cls id : Byte} {p : List Byte} : execFrame cls id p s = .next t ↔
    p.length ≤ 65535 ∧ t = delivering (.bytes (frame s.cfg.ckMod cls id p)) s := by
  unfold execFrame
  split <;> simp [*, next_eq_next, -Host.Outcome.next.injEq]

end

end Sys2Proof.Machine
end

