-- ==== Sys2Proof/Laws/Invariant.lean ====
section
/-! SUPPORT. R25's table read phase by phase. -/

namespace Sys2Proof.Machine

theorem Sync.wf_mem {c : Cfg} {s : Sync} (h : s.wf c = true) : Memory.wf s.buf = true := by
  simp only [Sync.wf, Bool.and_eq_true] at h
  exact h.1

theorem Sync.wf_seekSync1 {c : Cfg} {s : Sync} (hp : s.phase = .seekSync1) :
    s.wf c = true ↔ s = Sync.reset := by
  obtain ⟨p, buf, len, cnt⟩ := s
  subst hp
  simp only [Sync.wf, Bool.and_eq_true, decide_eq_true_eq, Sync.reset, Sync.mk.injEq, true_and]
  constructor
  · rintro ⟨_, hb, hl, hc⟩
    refine ⟨?_, BitVec.eq_of_toNat_eq (by simpa using hl), BitVec.eq_of_toNat_eq (by simpa using hc)⟩
    simpa [Memory.bytes] using hb
  · rintro ⟨rfl, rfl, rfl⟩
    decide

theorem Sync.wf_seekSync2 {c : Cfg} {s : Sync} (hp : s.phase = .seekSync2) :
    s.wf c = true ↔ s = { phase := .seekSync2, buf := Memory.ofBytes [sync1], expectedLen := 0, count := 0 } := by
  obtain ⟨p, buf, len, cnt⟩ := s
  subst hp
  simp only [Sync.wf, Bool.and_eq_true, decide_eq_true_eq, Sync.mk.injEq, true_and]
  constructor
  · rintro ⟨hm, hb, hl, hc⟩
    refine ⟨?_, BitVec.eq_of_toNat_eq (by simpa using hl), BitVec.eq_of_toNat_eq (by simpa using hc)⟩
    rw [← Memory.ofBytes_bytes hm, hb]
  · rintro ⟨rfl, rfl, rfl⟩
    decide

theorem Sync.wf_readHeader {c : Cfg} {s : Sync} (hp : s.phase = .readHeader) :
    s.wf c = true ↔ Memory.wf s.buf = true ∧ (Memory.bytes s.buf).take 2 = [sync1, sync2] ∧
      (Memory.bytes s.buf).length = 2 + s.count.toNat ∧ s.expectedLen.toNat = 0 ∧ s.count.toNat ≤ 3 := by
  simp only [Sync.wf, hp, Bool.and_eq_true, decide_eq_true_eq]

theorem Sync.wf_readPayload {c : Cfg} {s : Sync} (hp : s.phase = .readPayload) :
    s.wf c = true ↔ Memory.wf s.buf = true ∧ (Memory.bytes s.buf).take 2 = [sync1, sync2] ∧
      (Memory.bytes s.buf).length = 6 + s.count.toNat ∧ declaredLen (Memory.bytes s.buf) = some s.expectedLen.toNat ∧
      1 ≤ s.expectedLen.toNat ∧ s.expectedLen.toNat ≤ c.maxPayload ∧ s.count.toNat < s.expectedLen.toNat := by
  simp only [Sync.wf, hp, Bool.and_eq_true, decide_eq_true_eq]

theorem Sync.wf_readChecksum {c : Cfg} {s : Sync} (hp : s.phase = .readChecksum) :
    s.wf c = true ↔ Memory.wf s.buf = true ∧ (Memory.bytes s.buf).take 2 = [sync1, sync2] ∧
      (Memory.bytes s.buf).length = 6 + s.expectedLen.toNat + s.count.toNat ∧
      declaredLen (Memory.bytes s.buf) = some s.expectedLen.toNat ∧
      s.expectedLen.toNat ≤ c.maxPayload ∧ s.count.toNat ≤ 1 := by
  simp only [Sync.wf, hp, Bool.and_eq_true, decide_eq_true_eq]

end Sys2Proof.Machine
end

