-- ==== Sys2Proof/Laws/PerInstr.lean ====
section
/-! SUPPORT. Facts about every instruction as syntax, one lemma per constructor. -/

namespace Sys2Proof.Laws

/-- The encoder follows the table (R71): a step operation has exactly one word and a well-formed one's word satisfies its
row's match, mask and excluded bytes; every other instruction has no word. -/
def EncodedWord.Statement (i : Instr) : Prop :=
  match rowOf i with
  | none => encode i = []
  | some r => ∃ b, encode i = [b] ∧ (i.wellFormed = true → b &&& r.mask = r.matchBits ∧ r.excluded.contains b = false)

theorem EncodedWord.ss1Hit : EncodedWord.Statement (.ss1Hit) := ⟨_, rfl, by decide⟩
theorem EncodedWord.ss1Skip (x : Byte) : EncodedWord.Statement (.ss1Skip x) := ⟨x, rfl, by simp [Instr.wellFormed, sync1]⟩
theorem EncodedWord.ss2Hit : EncodedWord.Statement (.ss2Hit) := ⟨_, rfl, by decide⟩
theorem EncodedWord.ss2Restart : EncodedWord.Statement (.ss2Restart) := ⟨_, rfl, by decide⟩
theorem EncodedWord.ss2Miss (x : Byte) : EncodedWord.Statement (.ss2Miss x) := ⟨x, rfl, by simp [Instr.wellFormed, sync1, sync2]⟩
theorem EncodedWord.hdrAcc (x : Byte) : EncodedWord.Statement (.hdrAcc x) := ⟨x, rfl, by simp⟩
theorem EncodedWord.hdrLen (x : Byte) : EncodedWord.Statement (.hdrLen x) := ⟨x, rfl, by simp⟩
theorem EncodedWord.hdrLenZero : EncodedWord.Statement (.hdrLenZero) := ⟨_, rfl, by decide⟩
theorem EncodedWord.hdrOversize (x : Byte) : EncodedWord.Statement (.hdrOversize x) := ⟨x, rfl, by simp⟩
theorem EncodedWord.payAcc (x : Byte) : EncodedWord.Statement (.payAcc x) := ⟨x, rfl, by simp⟩
theorem EncodedWord.payLast (x : Byte) : EncodedWord.Statement (.payLast x) := ⟨x, rfl, by simp⟩
theorem EncodedWord.ckFirst (x : Byte) : EncodedWord.Statement (.ckFirst x) := ⟨x, rfl, by simp⟩
theorem EncodedWord.ckFail (x : Byte) : EncodedWord.Statement (.ckFail x) := ⟨x, rfl, by simp⟩
theorem EncodedWord.ckOkDecoded (x : Byte) : EncodedWord.Statement (.ckOkDecoded x) := ⟨x, rfl, by simp⟩
theorem EncodedWord.ckOkUnknown (x : Byte) : EncodedWord.Statement (.ckOkUnknown x) := ⟨x, rfl, by simp⟩
theorem EncodedWord.idle : EncodedWord.Statement (.idle) := rfl
theorem EncodedWord.rst : EncodedWord.Statement (.rst) := rfl
theorem EncodedWord.checksum (bs : List Byte) : EncodedWord.Statement (.checksum bs) := rfl
theorem EncodedWord.verify (bs : List Byte) (a b : Byte) : EncodedWord.Statement (.verify bs a b) := rfl
theorem EncodedWord.le16 (lo hi : Byte) : EncodedWord.Statement (.le16 lo hi) := rfl
theorem EncodedWord.field (p : List Byte) (o w : Nat) (sg : Bool) : EncodedWord.Statement (.field p o w sg) := rfl
theorem EncodedWord.frame (c i : Byte) (p : List Byte) : EncodedWord.Statement (.frame c i p) := rfl

end Sys2Proof.Laws
end

