-- ==== Sys2Proof/Tests/Slice0.lean ====
section
/-! SUPPORT. Tests with results taken from spec/95_test_vectors.md and the worked examples of the rules; the configuration
of a test is MAX_PAYLOAD = 64, CK_MOD = 255, default LAYOUTS, unless it says otherwise. -/

namespace Sys2Proof.Tests

open Machine

/-! ## Helpers -/

/-- The four elements, written as the spec writes them: phase / buf / expected_len / count. -/
def sy (p : Phase) (bs : List Byte) (len cnt : Nat) : Sync :=
  { phase := p, buf := Memory.ofBytes bs, expectedLen := BitVec.ofNat 16 len, count := BitVec.ofNat 16 cnt }

/-- An instance of the reference configuration in the given elements, with no event to come. -/
def st (s : Sync) : State := { State.reset with sync := s }

/-- The same with another modulus. -/
def stMod (m : Nat) (s : Sync) : State := { st s with cfg := { Config.reference with ckMod := m } }

/-- One byte delivered to `s`: the elements after it, if there is a next state. -/
def afterByte (s : State) (x : Byte) : Option Sync :=
  match step (deliver (.byte x) s) with
  | .next t => some t.sync
  | .fault _ => none
  | .refused _ => none

/-- One event delivered to `s`: its outputs, if there is a next state. -/
def outOf (s : State) (e : Event) : Option Outputs :=
  match step (deliver e s) with
  | .next t => some t.out
  | .fault _ => none
  | .refused _ => none

/-- The emission of a one-byte step. -/
def emitted (s : State) (x : Byte) : Option Emission := (outOf s (.byte x)).bind Outputs.emission

/-- The value a call delivers. -/
def valueOf (m : Nat) (f : FnCall) : Option Value := (outOf (stMod m Sync.reset) (.call f)).bind Outputs.value

/-- The operation the byte selects. -/
def picks (s : Sync) (x : Byte) : Option Instr := (decodeEvent (st s) (.byte x)).toOption

/-- The buffers the vectors use. -/
def hdr5 : List Byte := [0xB5, 0x62, 0x06, 0x01, 0x03]
def pay9 : List Byte := [0xB5, 0x62, 0x06, 0x01, 0x03, 0x00, 0xF0, 0x00, 0x00]

/-- A frame of class 2, id 3 with a two-byte layout, for a decoded message that is small. -/
def smallCfg : Cfg :=
  { maxPayload := 64, ckMod := 255,
    layouts := [{ cls := 0x02, id := 0x03, layout := [{ name := "v", offset := 0, width := 1, signed := true }] }] }

/-! ## WellFormed: an ill-formed term for each check -/

theorem test_wf_skip_refuses_B5 : (Instr.ss1Skip 0xB5).wellFormed = false := by decide
theorem test_wf_miss_refuses_62 : (Instr.ss2Miss 0x62).wellFormed = false := by decide
theorem test_wf_miss_refuses_B5 : (Instr.ss2Miss 0xB5).wellFormed = false := by decide
theorem test_wf_field_refuses_width_0 : (Instr.field [1] 0 0 false).wellFormed = false := by decide
theorem test_wf_field_refuses_width_9 :
    (Instr.field (List.replicate 9 0) 0 9 false).wellFormed = false := by decide
theorem test_wf_field_refuses_beyond_payload : (Instr.field [1, 2] 1 2 false).wellFormed = false := by decide
theorem test_wf_frame_refuses_long (p : List Byte) (h : p.length = 65536) :
    (Instr.frame 0 0 p).wellFormed = false := by simp [Instr.wellFormed, h]
theorem test_wf_cfg_refuses_mod_1 : ({ Config.reference with ckMod := 1 } : Cfg).wf = false := by decide
theorem test_wf_cfg_refuses_mod_257 : ({ Config.reference with ckMod := 257 } : Cfg).wf = false := by decide
theorem test_wf_cfg_refuses_long_payload : ({ Config.reference with maxPayload := 65536 } : Cfg).wf = false := by decide
theorem test_wf_cfg_refuses_two_keys :
    ({ Config.reference with layouts := [⟨1, 2, []⟩, ⟨1, 2, []⟩] } : Cfg).wf = false := by decide
theorem test_wf_cfg_refuses_width_9 :
    ({ Config.reference with layouts := [⟨1, 2, [⟨"f", 0, 9, false⟩]⟩] } : Cfg).wf = false := by decide
theorem test_wf_cfg_refuses_far_field :
    ({ Config.reference with layouts := [⟨1, 2, [⟨"f", 65535, 1, false⟩]⟩] } : Cfg).wf = false := by decide
theorem test_wf_cfg_refuses_same_names :
    ({ Config.reference with layouts := [⟨1, 2, [⟨"f", 0, 1, false⟩, ⟨"f", 1, 1, false⟩]⟩] } : Cfg).wf = false := by
  decide
theorem test_wf_cfg_reference : Config.reference.wf = true := by decide
theorem test_create_refuses : create { Config.reference with ckMod := 0 } = .refused .illFormedCfg := by rfl

/-! ## Decode: every constructor from a word written out from R60, R68 -/

theorem test_decode_ss1Hit : picks (sy .seekSync1 [] 0 0) 0b10110101 = some .ss1Hit := by decide
theorem test_decode_ss1Skip : picks (sy .seekSync1 [] 0 0) 0b01100010 = some (.ss1Skip 0x62) := by decide
theorem test_decode_ss2Hit : picks (sy .seekSync2 [0xB5] 0 0) 0b01100010 = some .ss2Hit := by decide
theorem test_decode_ss2Restart : picks (sy .seekSync2 [0xB5] 0 0) 0b10110101 = some .ss2Restart := by decide
theorem test_decode_ss2Miss : picks (sy .seekSync2 [0xB5] 0 0) 0x65 = some (.ss2Miss 0x65) := by decide
theorem test_decode_hdrAcc : picks (sy .readHeader [0xB5, 0x62, 0x06] 0 1) 0xB5 = some (.hdrAcc 0xB5) := by decide
theorem test_decode_hdrLen : picks (sy .readHeader [0xB5, 0x62, 0x02, 0x03, 0x40] 0 3) 0x00 = some (.hdrLen 0x00) := by
  decide
theorem test_decode_hdrLenZero :
    picks (sy .readHeader [0xB5, 0x62, 0x0A, 0x04, 0x00] 0 3) 0x00 = some .hdrLenZero := by decide
theorem test_decode_hdrOversize :
    picks (sy .readHeader [0xB5, 0x62, 0x02, 0x03, 0x41] 0 3) 0x00 = some (.hdrOversize 0x00) := by decide
theorem test_decode_payAcc :
    picks (sy .readPayload [0xB5, 0x62, 0x06, 0x01, 0x03, 0x00] 3 0) 0xF0 = some (.payAcc 0xF0) := by decide
theorem test_decode_payLast :
    picks (sy .readPayload [0xB5, 0x62, 0x02, 0x03, 0x01, 0x00] 1 0) 0xB5 = some (.payLast 0xB5) := by decide
theorem test_decode_ckFirst : picks (sy .readChecksum pay9 3 0) 0xFA = some (.ckFirst 0xFA) := by decide
theorem test_decode_ckFail : picks (sy .readChecksum (pay9 ++ [0xFA]) 3 1) 0x0F = some (.ckFail 0x0F) := by decide
theorem test_decode_ckOkDecoded :
    (decodeEvent { st (sy .readChecksum [0xB5, 0x62, 0x02, 0x03, 0x01, 0x00, 0xB5, 0xBB] 1 1) with cfg := smallCfg }
      (.byte 0xCE)).toOption = some (.ckOkDecoded 0xCE) := by decide
theorem test_decode_ckOkUnknown :
    picks (sy .readChecksum (pay9 ++ [0xFA]) 3 1) 0x12 = some (.ckOkUnknown 0x12) := by decide
theorem test_decode_idle : (decodeEvent State.reset .idle).toOption = some .idle := by decide
theorem test_decode_rst_wins :
    (decodeEvent State.reset (.cycle ⟨true, true, 0xB5⟩)).toOption = some .rst := by decide
theorem test_decode_checksum : (decodeEvent State.reset (.call (.checksum [6]))).toOption = some (.checksum [6]) := by decide
theorem test_decode_verify :
    (decodeEvent State.reset (.call (.verify [6] 1 2))).toOption = some (.verify [6] 1 2) := by decide
theorem test_decode_le16 : (decodeEvent State.reset (.call (.le16 1 2))).toOption = some (.le16 1 2) := by decide
theorem test_decode_field :
    (decodeEvent State.reset (.call (.field [6] 0 1 true))).toOption = some (.field [6] 0 1 true) := by decide
theorem test_decode_frame : (decodeEvent State.reset (.call (.frame 1 2 [3]))).toOption = some (.frame 1 2 [3]) := by decide
theorem test_decode_refuses_broken_state : picks (sy .readPayload [] 0 0) 0x00 = none := by decide

/-! ## Sync search (T3) -/

theorem test_ss1Hit : afterByte State.reset 0xB5 = some (sy .seekSync2 [0xB5] 0 0) := by decide
theorem test_ss1Skip : afterByte State.reset 0x62 = some (sy .seekSync1 [] 0 0) := by decide
theorem test_ss2Hit : afterByte (st (sy .seekSync2 [0xB5] 0 0)) 0x62 = some (sy .readHeader [0xB5, 0x62] 0 0) := by decide
theorem test_ss2Restart : afterByte (st (sy .seekSync2 [0xB5] 0 0)) 0xB5 = some (sy .seekSync2 [0xB5] 0 0) := by decide
theorem test_ss2Miss_65 : afterByte (st (sy .seekSync2 [0xB5] 0 0)) 0x65 = some (sy .seekSync1 [] 0 0) := by decide

/-! ## Header and payload (T4) -/

theorem test_hdrAcc : afterByte (st (sy .readHeader [0xB5, 0x62] 0 0)) 0x06
    = some (sy .readHeader [0xB5, 0x62, 0x06] 0 1) := by decide
theorem test_hdrLen : afterByte (st (sy .readHeader hdr5 0 3)) 0x00
    = some (sy .readPayload [0xB5, 0x62, 0x06, 0x01, 0x03, 0x00] 3 0) := by decide
theorem test_hdrLen_high_byte :
    afterByte { st (sy .readHeader [0xB5, 0x62, 0x02, 0x03, 0x00] 0 3) with
      cfg := { Config.reference with maxPayload := 300 } } 0x01
    = some (sy .readPayload [0xB5, 0x62, 0x02, 0x03, 0x00, 0x01] 256 0) := by decide
theorem test_hdrLenZero : afterByte (st (sy .readHeader [0xB5, 0x62, 0x0A, 0x04, 0x00] 0 3)) 0x00
    = some (sy .readChecksum [0xB5, 0x62, 0x0A, 0x04, 0x00, 0x00] 0 0) := by decide
theorem test_hdrOversize : afterByte (st (sy .readHeader [0xB5, 0x62, 0x02, 0x03, 0x41] 0 3)) 0x00
    = some (sy .seekSync1 [] 0 0) := by decide
theorem test_hdrOversize_strobe :
    (outOf (st (sy .readHeader [0xB5, 0x62, 0x02, 0x03, 0xFF] 0 3)) (.byte 0xFF)).map
      (fun o => (o.diagOversize, o.emission, o.condition))
    = some (true, none, some (.oversizePayload 0x02 0x03 65535)) := by decide
theorem test_payAcc : afterByte (st (sy .readPayload [0xB5, 0x62, 0x06, 0x01, 0x03, 0x00, 0xF0] 3 1)) 0xB5
    = some (sy .readPayload [0xB5, 0x62, 0x06, 0x01, 0x03, 0x00, 0xF0, 0xB5] 3 2) := by decide
theorem test_payLast : afterByte (st (sy .readPayload [0xB5, 0x62, 0x02, 0x03, 0x01, 0x00] 1 0)) 0xB5
    = some (sy .readChecksum [0xB5, 0x62, 0x02, 0x03, 0x01, 0x00, 0xB5] 1 0) := by decide

/-! ## Checksum and emission (T5, R122 example, T8 row 3) -/

theorem test_ckFirst : afterByte (st (sy .readChecksum pay9 3 0)) 0xFA
    = some (sy .readChecksum (pay9 ++ [0xFA]) 3 1) := by decide
theorem test_ckFail_literal : emitted (st (sy .readChecksum (pay9 ++ [0x17]) 3 1)) 0xFA
    = some (.checksumError 0x06 0x01 (0xFA, 0x12) (0x17, 0xFA)) := by decide
theorem test_ckFail_resets : afterByte (st (sy .readChecksum (pay9 ++ [0x17]) 3 1)) 0xFA
    = some (sy .seekSync1 [] 0 0) := by decide
theorem test_ckOkUnknown : emitted (st (sy .readChecksum (pay9 ++ [0xFA]) 3 1)) 0x12
    = some (.unknownMessage 0x06 0x01 [0xF0, 0x00, 0x00]) := by decide
theorem test_ckOkUnknown_mod256 : emitted (stMod 256 (sy .readChecksum (pay9 ++ [0xFA]) 3 1)) 0x0F
    = some (.unknownMessage 0x06 0x01 [0xF0, 0x00, 0x00]) := by decide
theorem test_ckOkDecoded :
    emitted { st (sy .readChecksum [0xB5, 0x62, 0x02, 0x03, 0x01, 0x00, 0xB5, 0xBB] 1 1) with cfg := smallCfg } 0xCE
    = some (.decodedMessage 0x02 0x03 [("v", -75)]) := by decide
/-- T6 vector 12 / program P2 step 35. -/
theorem test_ckOkDecoded_default_layout :
    emitted (st (sy .readChecksum ([0xB5, 0x62, 0x01, 0x02, 0x1C, 0x00, 0x15, 0xCD, 0x5B, 0x07, 0x2E, 0xFD, 0x69, 0xB6,
      0xC0, 0x46, 0xB2, 0x1E, 0x40, 0xE2, 0x01, 0x00, 0xFF, 0xFF, 0xFF, 0xFF, 0xC4, 0x09, 0x00, 0x00, 0xFF, 0xFF, 0xFF,
      0xFF, 0x7A]) 28 1)) 0x6F
    = some (.decodedMessage 0x01 0x02 [("iTOW", 123456789), ("lon", -1234567890), ("lat", 515000000),
        ("height", 123456), ("hMSL", -1), ("hAcc", 2500), ("vAcc", 4294967295)]) := by decide

/-! ## IDLE and RST (T7) -/

theorem test_idle : step (st (sy .readChecksum [0xB5, 0x62, 0x0A, 0x04, 0x00, 0x00, 0x0E] 0 1))
    = .next (st (sy .readChecksum [0xB5, 0x62, 0x0A, 0x04, 0x00, 0x00, 0x0E] 0 1)) := by rfl
theorem test_rst_drops_byte :
    step (deliver (.cycle ⟨true, true, 0x34⟩) (st (sy .readChecksum [0xB5, 0x62, 0x0A, 0x04, 0x00, 0x00, 0x0E] 0 1)))
    = .next State.reset := by rfl

/-! ## The functions (T1, T2, T6, T8) -/

theorem test_checksum_255 : valueOf 255 (.checksum [0x06, 0x01, 0x03, 0x00, 0xF0, 0x00, 0x00])
    = some (.pair 0xFA 0x12) := by decide
theorem test_checksum_256 : valueOf 256 (.checksum [0xFE, 0x01]) = some (.pair 0xFF 0xFD) := by decide
theorem test_verify_true : valueOf 255 (.verify [0x06, 0x01] 0x07 0x0D) = some (.bool true) := by decide
theorem test_verify_one_byte_wrong : valueOf 255 (.verify [0x06, 0x01] 0x07 0x0C) = some (.bool false) := by decide
theorem test_le16 : valueOf 255 (.le16 0x34 0x12) = some (.nat 0x1234) := by decide
theorem test_field_signed : valueOf 255 (.field [0x2E, 0xFD, 0x69, 0xB6] 0 4 true) = some (.int (-1234567890)) := by decide
theorem test_field_odd_width : valueOf 255 (.field [0xAA, 0x01, 0x02, 0x03] 1 3 false) = some (.int 197121) := by decide
theorem test_frame : valueOf 255 (.frame 0x06 0x01 [0xF0, 0x00, 0x00])
    = some (.bytes [0xB5, 0x62, 0x06, 0x01, 0x03, 0x00, 0xF0, 0x00, 0x00, 0xFA, 0x12]) := by decide
theorem test_frame_256 : valueOf 256 (.frame 0x02 0x03 [0xB5, 0x62, 0xB5, 0x62])
    = some (.bytes [0xB5, 0x62, 0x02, 0x03, 0x04, 0x00, 0xB5, 0x62, 0xB5, 0x62, 0x37, 0x03]) := by decide

/-! ## The host's questions and the ports -/

theorem test_table_word_B5 : decodeTableWord 8 0xB5 = some .ss1Hit := by decide
theorem test_table_word_runs_first :
    step (State.reset.withFetchWord 8 0xB5) = exec .ss1Hit State.reset := by rfl
/-- The ports after the CK_B step of T5 vector 2 (R144, R161). -/
theorem test_ports_of_emission :
    (match step (deliver (.byte 0x12) (st (sy .readChecksum (pay9 ++ [0xFA]) 3 1))) with
     | .next t => (outValid t, outKind t, outClass t, outId t, outLen t, outBody t, diagOversize t)
     | .fault _ => (false, 0, none, none, none, none, false)
     | .refused _ => (false, 0, none, none, none, none, false))
    = (true, 2, some 0x06, some 0x01, some 3, some (.rawPayload [0xF0, 0x00, 0x00]), false) := by rfl

/-! ## Witnesses: for each statement with hypotheses, states and operands that meet all of them together -/

/-- The states the witnesses use: one per place of R25's table. -/
def seek2 : State := st (sy .seekSync2 [0xB5] 0 0)
def head0 : State := st (sy .readHeader [0xB5, 0x62] 0 0)
def head2 : State := st (sy .readHeader [0xB5, 0x62, 0x06, 0x01] 0 2)
def head3 (lo : Byte) : State := st (sy .readHeader [0xB5, 0x62, 0x06, 0x01, lo] 0 3)
def payl1 : State := st (sy .readPayload [0xB5, 0x62, 0x06, 0x01, 0x01, 0x00] 1 0)
def payl3 (cnt : Nat) : State := st (sy .readPayload (pay9.take (6 + cnt)) 3 cnt)
def ck0 : State := st (sy .readChecksum pay9 3 0)
def ck0Empty : State := st (sy .readChecksum [0xB5, 0x62, 0x0A, 0x04, 0x00, 0x00] 0 0)
def ck1 (ckA : Byte) : State := st (sy .readChecksum (pay9 ++ [ckA]) 3 1)
def ck1Small : State :=
  { st (sy .readChecksum [0xB5, 0x62, 0x02, 0x03, 0x01, 0x00, 0xB5, 0xBB] 1 1) with cfg := smallCfg }
/-- The reference instance with the other modulus. -/
def inst256 : State := stMod 256 Sync.reset

theorem witness_ResetMeetsInvariant : Config.reference.wf = true := by decide
theorem witness_IllFormedCfgIsRefused :
    ({ Config.reference with ckMod := 1 } : Cfg).wf = false ∧ Config.reference.wf = true ∧
      (State.resetWith { Config.reference with ckMod := 257 }).cfg.wf = false := by decide
theorem witness_StepRunsDecodedInstruction :
    (deliver (.byte 0xB5) State.reset).cfg.wf = true ∧ (deliver (.byte 0xB5) State.reset).input = .byte 0xB5 :: [] ∧
      decodeEvent (deliver (.byte 0xB5) State.reset) (.byte 0xB5) = .ok .ss1Hit ∧ State.reset.input = [] :=
  ⟨by decide, rfl, rfl, rfl⟩
theorem witness_Ss1HitStoresFirstSyncByte :
    State.reset.sync.phase = .seekSync1 ∧
      ∃ t, stepEvent (.byte 0xB5) State.reset = .next t ∧ t.sync.phase ≠ .seekSync1 := ⟨rfl, _, rfl, by decide⟩
theorem witness_Ss1SkipLeavesNoTrace :
    State.reset.sync.phase = .seekSync1 ∧ State.reset.cfg.wf = true ∧ State.reset.sync = Sync.reset ∧
      ∀ x ∈ [(0x00 : Byte), 0x62, 0xFF], x ≠ 0xB5 := by decide
theorem witness_Ss2HitEntersReadHeader : seek2.sync.wf seek2.cfg = true ∧ seek2.sync.phase = .seekSync2 := by decide
theorem witness_Ss2RestartKeepsNewSyncByte :
    seek2.sync.phase = .seekSync2 ∧ seek2.sync.wf seek2.cfg = true ∧ State.reset.cfg.wf = true ∧
      State.reset.sync = Sync.reset := by decide
theorem witness_Ss2MissResetsSilently :
    seek2.sync.phase = .seekSync2 ∧ (0x65 : Byte) ≠ 0x62 ∧ (0x65 : Byte) ≠ 0xB5 := by decide
theorem witness_HdrAccStoresHeaderByte :
    head0.sync.wf head0.cfg = true ∧ head0.sync.phase = .readHeader ∧ head0.sync.count.toNat < 3 ∧
      head2.sync.wf head2.cfg = true ∧ head2.sync.phase = .readHeader ∧ head2.sync.count.toNat < 3 := by decide
/-- The least and the greatest accepted length. -/
theorem witness_HdrLenStartsPayload :
    (head3 1).sync = { phase := .readHeader, buf := Memory.ofBytes [0xB5, 0x62, 0x06, 0x01, 0x01], expectedLen := 0,
                       count := 3 } ∧
      1 ≤ ((0x00 : Byte) ++ (0x01 : Byte) : BitVec 16).toNat ∧
      1 ≤ ((0x00 : Byte) ++ (0x40 : Byte) : BitVec 16).toNat ∧
      ((0x00 : Byte) ++ (0x40 : Byte) : BitVec 16).toNat = (head3 0x40).cfg.maxPayload := by decide
theorem witness_HdrLenZeroSkipsPayload :
    (head3 0).sync = { phase := .readHeader, buf := Memory.ofBytes [0xB5, 0x62, 0x06, 0x01, 0x00], expectedLen := 0,
                       count := 3 } := by decide
theorem witness_HdrOversizeDropsFrame :
    (head3 0x41).sync = { phase := .readHeader, buf := Memory.ofBytes [0xB5, 0x62, 0x06, 0x01, 0x41], expectedLen := 0,
                          count := 3 } ∧
      (head3 0x41).cfg.maxPayload < ((0x00 : Byte) ++ (0x41 : Byte) : BitVec 16).toNat := by decide
theorem witness_PayAccStoresPayloadByte :
    (payl3 0).sync.wf (payl3 0).cfg = true ∧ (payl3 0).sync.phase = .readPayload ∧
      (payl3 0).sync.count.toNat + 1 < (payl3 0).sync.expectedLen.toNat ∧ (payl3 1).sync.wf (payl3 1).cfg = true ∧
      (payl3 1).sync.phase = .readPayload ∧ (payl3 1).sync.count.toNat + 1 < (payl3 1).sync.expectedLen.toNat := by decide
theorem witness_PayLastEntersReadChecksum :
    (payl3 2).sync.wf (payl3 2).cfg = true ∧ (payl3 2).sync.phase = .readPayload ∧
      (payl3 2).sync.count.toNat + 1 = (payl3 2).sync.expectedLen.toNat ∧ payl1.sync.wf payl1.cfg = true ∧
      payl1.sync.phase = .readPayload ∧ payl1.sync.count.toNat + 1 = payl1.sync.expectedLen.toNat := by decide
theorem witness_CkFirstStoresCkA :
    ck0.sync.wf ck0.cfg = true ∧ ck0.sync.phase = .readChecksum ∧ ck0.sync.count = 0 ∧
      ck0Empty.sync.wf ck0Empty.cfg = true ∧ ck0Empty.sync.phase = .readChecksum ∧ ck0Empty.sync.count = 0 := by decide
/-- The source's wrong literal pair (R122, V1). -/
theorem witness_CkFailEmitsChecksumError :
    (ck1 0x17).sync = { phase := .readChecksum,
                        buf := Memory.ofBytes ([0xB5, 0x62, 0x06, 0x01, 0x03, 0x00] ++ [0xF0, 0x00, 0x00] ++ [0x17]),
                        expectedLen := 3, count := 1 } ∧
      ([0xF0, 0x00, 0x00] : List Byte).length = (3 : Half).toNat ∧
      checksum (ck1 0x17).cfg.ckMod ([0x06, 0x01, 0x03, 0x00] ++ [0xF0, 0x00, 0x00]) ≠ (0x17, 0xFA) := by decide
theorem witness_CkOkDecodedEmitsFields :
    ck1Small.cfg.wf = true ∧
      ck1Small.sync = { phase := .readChecksum,
                        buf := Memory.ofBytes ([0xB5, 0x62, 0x02, 0x03, 0x01, 0x00] ++ [0xB5] ++ [0xBB]),
                        expectedLen := 1, count := 1 } ∧
      ([0xB5] : List Byte).length = (1 : Half).toNat ∧
      checksum ck1Small.cfg.ckMod ([0x02, 0x03, 0x01, 0x00] ++ [0xB5]) = (0xBB, 0xCE) ∧
      ck1Small.cfg.lookup 0x02 0x03 = some [{ name := "v", offset := 0, width := 1, signed := true }] ∧
      ∀ f ∈ [({ name := "v", offset := 0, width := 1, signed := true } : FieldDesc)],
        f.offset + f.width ≤ ([0xB5] : List Byte).length := by decide
/-- No layout for the key; and a key whose only field needs one byte, with an empty payload. -/
theorem witness_CkOkUnknownEmitsRawPayload :
    (ck1 0xFA).sync = { phase := .readChecksum,
                        buf := Memory.ofBytes ([0xB5, 0x62, 0x06, 0x01, 0x03, 0x00] ++ [0xF0, 0x00, 0x00] ++ [0xFA]),
                        expectedLen := 3, count := 1 } ∧
      checksum (ck1 0xFA).cfg.ckMod ([0x06, 0x01, 0x03, 0x00] ++ [0xF0, 0x00, 0x00]) = (0xFA, 0x12) ∧
      (ck1 0xFA).cfg.lookup 0x06 0x01 = none ∧
      smallCfg.lookup 0x02 0x03 = some [{ name := "v", offset := 0, width := 1, signed := true }] ∧
      ([] : List Byte).length < 0 + 1 := by decide
theorem witness_IdleChangesNothing : ck0Empty.cfg.wf = true := by decide
theorem witness_RstFromEveryState : (payl3 1).cfg.wf = true := by decide
/-- The narrowest and the widest field. -/
theorem witness_FieldDeliversItsValue :
    1 ≤ ([0x80] : List Byte).length ∧ ([0x80] : List Byte).length ≤ 8 ∧ 1 ≤ (pay9.take 8).length ∧
      (pay9.take 8).length ≤ 8 := by decide
/-- The empty and the longest payload. -/
theorem witness_FrameDeliversItsBytes :
    ([] : List Byte).length = (0x00 : Byte).toNat + 256 * (0x00 : Byte).toNat ∧
      (List.replicate 65535 (0x00 : Byte)).length = (0xFF : Byte).toNat + 256 * (0xFF : Byte).toNat :=
  ⟨rfl, List.length_replicate⟩
theorem witness_FunctionsRefuseOutsideTheirOperands :
    exec (.field [0x01] 0 0 false) State.reset = .refused .fieldOperands ∧
      exec (.field pay9 0 9 false) State.reset = .refused .fieldOperands ∧
      exec (.field [0x01, 0x02] 1 2 false) State.reset = .refused .fieldOperands ∧
      65535 < (List.replicate 65536 (0x00 : Byte)).length :=
  ⟨rfl, rfl, rfl, by rw [List.length_replicate]; decide⟩
theorem witness_StoringStepsWriteOnlyTheFillIndex :
    (∃ t, exec .ss2Hit seek2 = .next t) ∧ (∃ t, exec (.hdrAcc 0x06) head0 = .next t) ∧
      (∃ t, exec (.hdrLen 0x00) (head3 0x40) = .next t) ∧ (∃ t, exec .hdrLenZero (head3 0x00) = .next t) ∧
      (∃ t, exec (.payAcc 0xF0) (payl3 0) = .next t) ∧ (∃ t, exec (.payLast 0x00) (payl3 2) = .next t) ∧
      (∃ t, exec (.ckFirst 0xFA) ck0 = .next t) ∧ Memory.wf ck0.sync.buf = true ∧ Memory.wf seek2.sync.buf = true :=
  ⟨⟨_, rfl⟩, ⟨_, rfl⟩, ⟨_, rfl⟩, ⟨_, rfl⟩, ⟨_, rfl⟩, ⟨_, rfl⟩, ⟨_, rfl⟩, rfl, rfl⟩
theorem witness_NonStoringOperationsKeepTheElements :
    (∃ t, exec (.ss1Skip 0x62) State.reset = .next t) ∧ (∃ t, exec .idle ck0 = .next t) ∧
      (∃ t, exec (.checksum [0x06]) ck0 = .next t) ∧ (∃ t, exec (.verify [0x06] 0x06 0x06) ck0 = .next t) ∧
      (∃ t, exec (.le16 0x34 0x12) ck0 = .next t) ∧ (∃ t, exec (.field [0x80] 0 1 true) ck0 = .next t) ∧
      ∃ t, exec (.frame 0x06 0x01 []) ck0 = .next t :=
  ⟨⟨_, rfl⟩, ⟨_, rfl⟩, ⟨_, rfl⟩, ⟨_, rfl⟩, ⟨_, rfl⟩, ⟨_, rfl⟩, _, rfl⟩
theorem witness_StepsKeepCfgAndTakeOneEvent :
    (∃ t, exec (.ckFail 0x12) (ck1 0x17) = .next t) ∧ ∃ t, step (deliver (.byte 0xB5) State.reset) = .next t :=
  ⟨⟨_, rfl⟩, _, rfl⟩
theorem witness_EveryStepKeepsInvariant :
    StateInv (deliver (.byte 0xFA) ck0) ∧ ∃ t, step (deliver (.byte 0xFA) ck0) = .next t :=
  ⟨by unfold StateInv; decide, _, rfl⟩
theorem witness_StepAnswersEveryEvent :
    StateInv ck0 ∧ (Event.byte 0xFF).wellFormed = true ∧ (Event.call (.field [0x80] 0 1 true)).wellFormed = true :=
  ⟨by unfold StateInv; decide, by decide, by decide⟩
theorem witness_OperationsKeepBufferCanonical :
    Memory.wf ck0.sync.buf = true ∧ ∃ t, exec (.ckFirst 0x00) ck0 = .next t := ⟨by decide, _, rfl⟩
/-- The fullest state of a frame of length 3. -/
theorem witness_BufferFillIsBounded : StateInv (ck1 0xFA) ∧ (ck1 0xFA).sync.buf.length = 6 + 3 + 1 :=
  ⟨by unfold StateInv; decide, rfl⟩
theorem witness_BufferIndexMap :
    StateInv ck0 ∧ ck0.sync.phase = .readChecksum ∧ StateInv (payl3 0) ∧ (payl3 0).sync.phase = .readPayload ∧
      StateInv seek2 ∧ seek2.sync.phase = .seekSync2 ∧ ck0.cfg.maxFrame - 1 ≤ 71 :=
  ⟨by unfold StateInv; decide, rfl, by unfold StateInv; decide, rfl, by unfold StateInv; decide, rfl, by decide⟩
theorem witness_DecodeEncodeAgree :
    StateInv (head3 0x00) ∧ decodeByte (head3 0x00) 0x00 = .ok .hdrLenZero ∧ encode .hdrLenZero = [0x00] ∧
      selectedByRow (head3 0x00) 0x00 .hdrLenZero = true := ⟨by unfold StateInv; decide, rfl, rfl, by decide⟩
theorem witness_ExactlyOneRowHolds : StateInv (ck1 0xFA) := by unfold StateInv; decide
theorem witness_WordlessInstructionsComeBack : encode .idle = [] ∧ encode .rst = [] ∧ encode (.frame 1 2 []) = [] := by
  decide
theorem witness_OperationsRunOnlyWhereSelected :
    StateInv (payl3 2) ∧ encode (.payLast 0x00) = [0x00] ∧ ∃ t, exec (.payLast 0x00) (payl3 2) = .next t :=
  ⟨by unfold StateInv; decide, rfl, _, rfl⟩
/-- A step with the strobe, and one with a record. -/
theorem witness_OutputsOfAStep :
    (∃ t, exec (.hdrOversize 0x00) (head3 0x41) = .next t ∧ t.out.diagOversize = true) ∧
      ∃ t, exec (.ckFail 0x12) (ck1 0x17) = .next t ∧ t.out.emission.isSome = true := ⟨⟨_, rfl, rfl⟩, _, rfl, rfl⟩
theorem witness_PortsOfAStep :
    ∃ t, exec (.ckOkUnknown 0x12) (ck1 0xFA) = .next t ∧ outValid t = true := ⟨_, rfl, rfl⟩
theorem witness_ConditionCodesRaised :
    (∃ t, exec (.ss1Skip 0x00) State.reset = .next t) ∧ (∃ t, exec .ss2Restart seek2 = .next t) ∧
      (∃ t, exec (.ss2Miss 0x65) seek2 = .next t) ∧ (∃ t, exec (.hdrOversize 0x00) (head3 0x41) = .next t) ∧
      (∃ t, exec (.ckFail 0x12) (ck1 0x17) = .next t) ∧ (∃ t, exec (.ckOkUnknown 0x12) (ck1 0xFA) = .next t) ∧
      ∃ t, exec (.ckOkDecoded 0xCE) ck1Small = .next t :=
  ⟨⟨_, rfl⟩, ⟨_, rfl⟩, ⟨_, rfl⟩, ⟨_, rfl⟩, ⟨_, rfl⟩, ⟨_, rfl⟩, _, rfl⟩
/-- Two states that differ in what was presented last, and a run from the first. -/
theorem witness_RunsDependOnElementsAlone :
    (raise .syncLost none seek2).sync = State.reset.sync ∧ (raise .syncLost none seek2).cfg = State.reset.cfg ∧
      ∃ t os, RunsTo State.reset [.byte 0xB5, .idle] t os := ⟨rfl, rfl, _, _, rfl⟩
theorem witness_FreshAfterEveryEnd :
    decodeEvent (ck1 0xFA) (.byte 0x12) = .ok (.ckOkUnknown 0x12) ∧
      (∃ t, stepEvent (.byte 0x12) (ck1 0xFA) = .next t) ∧
      decodeEvent seek2 (.byte 0x65) = .ok (.ss2Miss 0x65) ∧ (∃ t, stepEvent (.byte 0x65) seek2 = .next t) ∧
      ∃ t os, RunsTo (State.resetWith (ck1 0xFA).cfg) [.byte 0xB5] t os :=
  ⟨rfl, ⟨_, rfl⟩, rfl, ⟨_, rfl⟩, _, _, rfl⟩
theorem witness_RunsCompose :
    RunsTo State.reset [.byte 0xB5] (quietly State.reset Sync.syncStarted) [Outputs.quiet] ∧
      ∃ u ps, RunsTo (quietly State.reset Sync.syncStarted) [.byte 0x62] u ps := ⟨rfl, _, _, rfl⟩
theorem witness_InsertedPollsChangeNothing :
    ∃ t os, RunsTo State.reset [.byte 0xB5, .idle, .reset, .call (.le16 1 2), .byte 0xB5] t os := ⟨_, _, rfl⟩
theorem witness_HostRunIsTheRun : ∃ t os, RunsTo State.reset [.byte 0xB5, .byte 0x62] t os := ⟨_, _, rfl⟩
theorem witness_NoSyncPairEmitsNothing :
    State.reset.cfg.wf = true ∧ State.reset.sync = Sync.reset ∧ hasSyncPair [0x62, 0xB5, 0x65, 0xB5] = false := by decide
/-- The empty payload and one of exactly MAX_PAYLOAD bytes. -/
theorem witness_FrameYieldsItsRecord :
    State.reset.cfg.wf = true ∧ State.reset.sync = Sync.reset ∧ ([] : List Byte).length ≤ State.reset.cfg.maxPayload ∧
      (List.replicate 64 (0xB5 : Byte)).length = State.reset.cfg.maxPayload := by decide
/-- The least and the greatest oversize length. -/
theorem witness_OversizeFrameStrobesAtSixthByte :
    State.reset.cfg.wf = true ∧ State.reset.sync = Sync.reset ∧
      State.reset.cfg.maxPayload < (List.replicate 65 (0x00 : Byte)).length ∧
      (List.replicate 65 (0x00 : Byte)).length ≤ 65535 ∧ (List.replicate 65535 (0x00 : Byte)).length ≤ 65535 :=
  ⟨by decide, by decide, by decide, by decide, Nat.le_of_eq List.length_replicate⟩
theorem witness_GarbageBetweenFramesIsLossless :
    State.reset.cfg.wf = true ∧ State.reset.sync = Sync.reset ∧ ([0x01] : List Byte).length ≤ State.reset.cfg.maxPayload ∧
      hasSyncPair [0x62, 0x00, 0xB5] = false := by decide
/-- Modulus 256 with the pair 0x00, 0xFF, and modulus 255 with another pair. -/
theorem witness_CorruptedByteIsAChecksumError :
    inst256.cfg.wf = true ∧ inst256.sync = Sync.reset ∧ inst256.cfg.ckMod = 256 ∧ (0x00 : Byte) ≠ 0xFF ∧
      ([0x01] : List Byte).length + 1 + ([0x02] : List Byte).length ≤ inst256.cfg.maxPayload ∧
      State.reset.cfg.wf = true ∧ State.reset.sync = Sync.reset ∧ State.reset.cfg.ckMod = 255 ∧
      ¬((0x00 : Byte) = 0x00 ∧ (0x01 : Byte) = 0xFF) ∧ ¬((0x00 : Byte) = 0xFF ∧ (0x01 : Byte) = 0x00) ∧
      (0x00 : Byte) ≠ 0x01 := by decide
/-- An oversize header, a whole attempt, and one byte less, at the lengths 65, 64 and 0. -/
theorem witness_AttemptTakesItsDeclaredBytes :
    head0.cfg.wf = true ∧
      head0.sync = { phase := .readHeader, buf := Memory.ofBytes [0xB5, 0x62], expectedLen := 0, count := 0 } ∧
      head0.cfg.maxPayload < (0x41 : Byte).toNat + 256 * (0x00 : Byte).toNat ∧
      ¬head0.cfg.maxPayload < (0x40 : Byte).toNat + 256 * (0x00 : Byte).toNat ∧
      (List.replicate 66 (0xB5 : Byte)).length = (0x40 : Byte).toNat + 256 * (0x00 : Byte).toNat + 2 ∧
      (List.replicate 65 (0xB5 : Byte)).length < (0x40 : Byte).toNat + 256 * (0x00 : Byte).toNat + 2 ∧
      ([0x0E] : List Byte).length < (0x00 : Byte).toNat + 256 * (0x00 : Byte).toNat + 2 := by decide
theorem witness_ChecksumRecurrence : 2 ≤ 2 ∧ 2 ≤ 256 ∧ ([0x01, 0x02] : List Byte).Perm [0x02, 0x01] := by decide
theorem witness_ChecksumClosedForm : 2 ≤ 255 ∧ 255 ≤ 256 := by decide
theorem witness_VerifyAcceptsExactlyTheChecksum :
    2 ≤ 255 ∧ 255 ≤ 256 ∧ verify 255 [0x06, 0x01] 0x07 0x0D = true ∧ 255 ≤ (0xFF : Byte).toNat := by decide
theorem witness_SingleByteAliasing :
    (0x00 : Byte) ≠ 0x01 ∧ ¬((0x00 : Byte) = 0x00 ∧ (0x01 : Byte) = 0xFF) ∧ ¬((0x00 : Byte) = 0xFF ∧ (0x01 : Byte) = 0x00) := by
  decide
theorem witness_FfChecksumByteFailsUnder255 :
    StateInv (ck1 0xFF) ∧ (ck1 0xFF).cfg.ckMod = 255 ∧ (ck1 0xFF).sync.phase = .readChecksum ∧
      (ck1 0xFF).sync.count = 1 ∧ Memory.read (ck1 0xFF).sync.buf (6 + (ck1 0xFF).sync.expectedLen.toNat) = some 0xFF ∧
      StateInv (ck1 0xFA) :=
  ⟨by unfold StateInv; decide, rfl, rfl, rfl, by decide, by unfold StateInv; decide⟩
theorem witness_LengthIsLittleEndian :
    Memory.wf ck0.sync.buf = true ∧ Memory.read ck0.sync.buf 4 = some 0x03 ∧ Memory.read ck0.sync.buf 5 = some 0x00 := by
  decide
theorem witness_FieldIsLittleEndianSum : 0 + 0 ≤ ([] : List Byte).length ∧ 1 + 8 ≤ pay9.length := by decide
theorem witness_InstancesAreIndependent :
    ∃ sys', stepInstance 1 [seek2, deliver (.byte 0xB5) State.reset, ck0] = .next sys' := ⟨_, rfl⟩

end Sys2Proof.Tests
end

section
/-! The configuration check (R7, R183): what creation and a step answer on either side of it. -/

namespace Sys2Proof.Scope

open Sys2Proof.Machine

theorem create_of_wf {c : Cfg} (h : c.wf = true) : create c = .next (State.resetWith c) := if_pos h

theorem create_of_illFormed {c : Cfg} (h : c.wf = false) : create c = .refused .illFormedCfg :=
  if_neg (Bool.eq_false_iff.mp h)

/-- Taking the next event leaves the configuration as it was (R7: `Cfg` is fixed for the instance). -/
@[simp] theorem fetch_cfg (s : State) : (fetch s).2.cfg = s.cfg := by
  obtain ⟨_, hf⟩ | ⟨e, rest, _, hf⟩ := fetch_cases s
  · rw [hf]
  · rw [hf]

/-- The check comes before the decoder, so the event does not matter. -/
theorem stepEvent_of_illFormed (e : Event) {s : State} (h : s.cfg.wf = false) :
    stepEvent e s = .refused .illFormedCfg :=
  if_neg (Bool.eq_false_iff.mp h)

theorem step_of_illFormed {s : State} (h : s.cfg.wf = false) : step s = .refused .illFormedCfg :=
  stepEvent_of_illFormed _ (by rw [fetch_cfg, h])

/-- Settles O3: creation and every step branch on the check, and taking an event cannot change its answer. -/
theorem illFormedCfgIsRefused : Obligations.IllFormedCfgIsRefused :=
  ⟨fun _ => create_of_illFormed, fun _ => create_of_wf, fun _ => step_of_illFormed⟩

end Sys2Proof.Scope
end

section
/-! The state of the block (R20 to R37): what an operation can do to the four elements, what it reads and what it leaves,
and with that the invariant of R25, the frame of the storing operations, and runs that depend on the elements alone. -/

namespace Sys2Proof.StateFamily

open Sys2Proof.Machine

/-! ## The reset state and the shared synced state -/

theorem reset_wf (c : Cfg) : Sync.reset.wf c = true := (Sync.wf_seekSync1 rfl).2 rfl

theorem syncStarted_wf (c : Cfg) : Sync.syncStarted.wf c = true := (Sync.wf_seekSync2 rfl).2 rfl

theorem stateInv_iff {s : State} : StateInv s ↔ s.cfg.wf = true ∧ s.sync.wf s.cfg = true := by
  rw [StateInv, State.wf, Bool.and_eq_true]

theorem stateInv_resetWith {c : Cfg} (h : c.wf = true) : StateInv (State.resetWith c) :=
  stateInv_iff.2 ⟨h, reset_wf c⟩

/-- Settles O1: the three ways to RESET_STATE set the same record. -/
theorem resetStateValues : Obligations.ResetStateValues := fun _ s =>
  ⟨rfl, rfl, resetToSeek_sync s, _, execRst_next.2 rfl, rfl, quietly_cfg s _, quietly_input s _, rfl, rfl⟩

/-- Settles O2: RESET_STATE is the one row of R25's first line, and the reference configuration is well formed. -/
theorem resetMeetsInvariant : Obligations.ResetMeetsInvariant :=
  ⟨stateInv_resetWith (by decide), fun _ => stateInv_resetWith⟩

/-! ## What one operation reads, changes and leaves -/

section
variable {i : Instr} {s s' t : State} {x : Byte}

/-- An operation reads neither the events to come nor what was last presented, and it sets only the four
elements and the outputs (R26, R29, R33). -/
theorem exec_next_of_same_elements (h : exec i s = .next t) (l : List Event) (o : Outputs) :
    exec i { s with input := l, out := o } = .next { s with sync := t.sync, input := l, out := t.out } := by
  cases i with
  | ss1Hit => obtain ⟨hp, rfl⟩ := execSs1Hit_next.1 h; exact execSs1Hit_next.2 ⟨hp, rfl⟩
  | ss1Skip x => obtain ⟨hp, rfl⟩ := execSs1Skip_next.1 h; exact execSs1Skip_next.2 ⟨hp, rfl⟩
  | ss2Hit => obtain ⟨hp, m, hm, rfl⟩ := execSs2Hit_next.1 h; exact execSs2Hit_next.2 ⟨hp, m, hm, rfl⟩
  | ss2Restart => obtain ⟨hp, rfl⟩ := execSs2Restart_next.1 h; exact execSs2Restart_next.2 ⟨hp, rfl⟩
  | ss2Miss x => obtain ⟨hp, rfl⟩ := execSs2Miss_next.1 h; exact execSs2Miss_next.2 ⟨hp, rfl⟩
  | hdrAcc x => obtain ⟨hp, m, hm, rfl⟩ := execHdrAcc_next.1 h; exact execHdrAcc_next.2 ⟨hp, m, hm, rfl⟩
  | hdrLen x =>
    obtain ⟨hp, len, hl, hr, m, hm, rfl⟩ := execHdrLen_next.1 h
    exact execHdrLen_next.2 ⟨hp, len, hl, hr, m, hm, rfl⟩
  | hdrLenZero =>
    obtain ⟨hp, hl, m, hm, rfl⟩ := execHdrLenZero_next.1 h
    exact execHdrLenZero_next.2 ⟨hp, hl, m, hm, rfl⟩
  | hdrOversize x =>
    obtain ⟨hp, len, hl, ho, c, d, hc, hd, rfl⟩ := execHdrOversize_next.1 h
    exact execHdrOversize_next.2 ⟨hp, len, hl, ho, c, d, hc, hd, rfl⟩
  | payAcc x => obtain ⟨hp, m, hm, rfl⟩ := execPayAcc_next.1 h; exact execPayAcc_next.2 ⟨hp, m, hm, rfl⟩
  | payLast x => obtain ⟨hp, m, hm, rfl⟩ := execPayLast_next.1 h; exact execPayLast_next.2 ⟨hp, m, hm, rfl⟩
  | ckFirst x => obtain ⟨hp, m, hm, rfl⟩ := execCkFirst_next.1 h; exact execCkFirst_next.2 ⟨hp, m, hm, rfl⟩
  | ckFail x => obtain ⟨hp, v, hv, hk, rfl⟩ := execCkFail_next.1 h; exact execCkFail_next.2 ⟨hp, v, hv, hk, rfl⟩
  | ckOkDecoded x =>
    obtain ⟨hp, v, hv, hk, y, hy, fs, hf, rfl⟩ := execCkOkDecoded_next.1 h
    exact execCkOkDecoded_next.2 ⟨hp, v, hv, hk, y, hy, fs, hf, rfl⟩
  | ckOkUnknown x =>
    obtain ⟨hp, v, hv, hk, rfl⟩ := execCkOkUnknown_next.1 h
    exact execCkOkUnknown_next.2 ⟨hp, v, hv, hk, rfl⟩
  | idle => obtain rfl := execIdle_next.1 h; exact execIdle_next.2 rfl
  | rst => obtain rfl := execRst_next.1 h; exact execRst_next.2 rfl
  | checksum bs => obtain rfl := execChecksum_next.1 h; exact execChecksum_next.2 rfl
  | verify bs a b => obtain rfl := execVerify_next.1 h; exact execVerify_next.2 rfl
  | le16 lo hi => obtain rfl := execLe16_next.1 h; exact execLe16_next.2 rfl
  | field p o w sg => obtain ⟨v, hv, rfl⟩ := execField_next.1 h; exact execField_next.2 ⟨v, hv, rfl⟩
  | frame c d p => obtain ⟨hp, rfl⟩ := execFrame_next.1 h; exact execFrame_next.2 ⟨hp, rfl⟩

theorem exec_next_eq (h : exec i s = .next t) : t = { s with sync := t.sync, out := t.out } :=
  next_eq_next.1 ((exec_next_of_same_elements h s.input s.out).symm.trans h)

theorem exec_keeps_cfg (h : exec i s = .next t) : t.cfg = s.cfg := by rw [exec_next_eq h]

theorem exec_keeps_input (h : exec i s = .next t) : t.input = s.input := by rw [exec_next_eq h]

/-- The operations that store their byte in the buffer, each with the byte it stores (R102, R110 to R116, R120). -/
inductive Stores : Instr → Byte → Prop
  | ss2Hit : Stores .ss2Hit sync2
  | hdrAcc (x : Byte) : Stores (.hdrAcc x) x
  | hdrLen (x : Byte) : Stores (.hdrLen x) x
  | hdrLenZero : Stores .hdrLenZero 0x00
  | payAcc (x : Byte) : Stores (.payAcc x) x
  | payLast (x : Byte) : Stores (.payLast x) x
  | ckFirst (x : Byte) : Stores (.ckFirst x) x

/-- What an operation can do to the four elements: keep them, clear them, start over with a first sync byte, or store its
byte (`Stores.exec_next`). -/
theorem exec_sync_cases (h : exec i s = .next t) :
    t.sync = s.sync ∨ t.sync = Sync.reset ∨ t.sync = Sync.syncStarted ∨ ∃ x, Stores i x := by
  cases i with
  | ss1Hit => obtain ⟨-, rfl⟩ := execSs1Hit_next.1 h; exact .inr (.inr (.inl rfl))
  | ss1Skip x => obtain ⟨-, rfl⟩ := execSs1Skip_next.1 h; exact .inl rfl
  | ss2Hit => exact .inr (.inr (.inr ⟨_, .ss2Hit⟩))
  | ss2Restart => obtain ⟨-, rfl⟩ := execSs2Restart_next.1 h; exact .inr (.inr (.inl rfl))
  | ss2Miss x => obtain ⟨-, rfl⟩ := execSs2Miss_next.1 h; exact .inr (.inl rfl)
  | hdrAcc x => exact .inr (.inr (.inr ⟨x, .hdrAcc x⟩))
  | hdrLen x => exact .inr (.inr (.inr ⟨x, .hdrLen x⟩))
  | hdrLenZero => exact .inr (.inr (.inr ⟨_, .hdrLenZero⟩))
  | hdrOversize x => obtain ⟨-, _, -, -, _, _, -, -, rfl⟩ := execHdrOversize_next.1 h; exact .inr (.inl rfl)
  | payAcc x => exact .inr (.inr (.inr ⟨x, .payAcc x⟩))
  | payLast x => exact .inr (.inr (.inr ⟨x, .payLast x⟩))
  | ckFirst x => exact .inr (.inr (.inr ⟨x, .ckFirst x⟩))
  | ckFail x => obtain ⟨-, _, -, -, rfl⟩ := execCkFail_next.1 h; exact .inr (.inl rfl)
  | ckOkDecoded x => obtain ⟨-, _, -, -, _, -, _, -, rfl⟩ := execCkOkDecoded_next.1 h; exact .inr (.inl rfl)
  | ckOkUnknown x => obtain ⟨-, _, -, -, rfl⟩ := execCkOkUnknown_next.1 h; exact .inr (.inl rfl)
  | idle => obtain rfl := execIdle_next.1 h; exact .inl rfl
  | rst => obtain rfl := execRst_next.1 h; exact .inr (.inl rfl)
  | checksum bs => obtain rfl := execChecksum_next.1 h; exact .inl rfl
  | verify bs a b => obtain rfl := execVerify_next.1 h; exact .inl rfl
  | le16 lo hi => obtain rfl := execLe16_next.1 h; exact .inl rfl
  | field p o w sg => obtain ⟨_, -, rfl⟩ := execField_next.1 h; exact .inl rfl
  | frame c d p => obtain ⟨-, rfl⟩ := execFrame_next.1 h; exact .inl rfl

/-! ## The storing operations -/

/-- A storing operation appends its byte and presents nothing. -/
theorem Stores.exec_next (hi : Stores i x) (h : exec i s = .next t) :
    Memory.append s.cfg.maxFrame s.sync.buf x = some t.sync.buf ∧ t = quietly s t.sync := by
  cases hi with
  | ss2Hit => obtain ⟨-, m, hm, rfl⟩ := execSs2Hit_next.1 h; exact ⟨hm, rfl⟩
  | hdrAcc => obtain ⟨-, m, hm, rfl⟩ := execHdrAcc_next.1 h; exact ⟨hm, rfl⟩
  | hdrLen => obtain ⟨-, _, -, -, m, hm, rfl⟩ := execHdrLen_next.1 h; exact ⟨hm, rfl⟩
  | hdrLenZero => obtain ⟨-, -, m, hm, rfl⟩ := execHdrLenZero_next.1 h; exact ⟨hm, rfl⟩
  | payAcc => obtain ⟨-, m, hm, rfl⟩ := execPayAcc_next.1 h; exact ⟨hm, rfl⟩
  | payLast => obtain ⟨-, m, hm, rfl⟩ := execPayLast_next.1 h; exact ⟨hm, rfl⟩
  | ckFirst => obtain ⟨-, m, hm, rfl⟩ := execCkFirst_next.1 h; exact ⟨hm, rfl⟩

theorem Stores.out_eq_quiet (hi : Stores i x) (h : exec i s = .next t) : t.out = Outputs.quiet := by
  rw [(hi.exec_next h).2, quietly_out]

theorem Stores.keeps_canonical (hi : Stores i x) (h : exec i s = .next t) (hw : Memory.wf s.sync.buf = true) :
    Memory.wf t.sync.buf = true :=
  Memory.append_keeps_wf hw (hi.exec_next h).1

theorem Stores.bytes_eq (hi : Stores i x) (h : exec i s = .next t) (hw : Memory.wf s.sync.buf = true) :
    Memory.bytes t.sync.buf = Memory.bytes s.sync.buf ++ [x] := by
  rw [(Memory.append_some hw (hi.exec_next h).1).2, Memory.bytes_ofBytes]

theorem Stores.read_eq (hi : Stores i x) (h : exec i s = .next t) (hw : Memory.wf s.sync.buf = true) (a : Nat) :
    Memory.read t.sync.buf a = if a = s.sync.buf.length then some x else Memory.read s.sync.buf a :=
  Memory.read_append hw (hi.exec_next h).1 a

/-- The storing operations of O27 are the ones `Stores` lists, by their one word. -/
theorem stores_of_encode
    (hi : i = .ss2Hit ∨ i = .hdrAcc x ∨ i = .hdrLen x ∨ i = .hdrLenZero ∨ i = .payAcc x ∨ i = .payLast x ∨ i = .ckFirst x)
    (he : encode i = [x]) : Stores i x := by
  obtain rfl | rfl | rfl | rfl | rfl | rfl | rfl := hi
  · obtain rfl : sync2 = x := List.singleton_inj.1 he
    exact .ss2Hit
  · exact .hdrAcc x
  · exact .hdrLen x
  · obtain rfl : 0x00 = x := List.singleton_inj.1 he
    exact .hdrLenZero
  · exact .payAcc x
  · exact .payLast x
  · exact .ckFirst x

theorem exec_keeps_phase (hi : i = .hdrAcc x ∨ i = .payAcc x ∨ i = .ckFirst x) (h : exec i s = .next t) :
    t.sync.phase = s.sync.phase := by
  obtain rfl | rfl | rfl := hi
  · obtain ⟨-, m, -, rfl⟩ := execHdrAcc_next.1 h; rfl
  · obtain ⟨-, m, -, rfl⟩ := execPayAcc_next.1 h; rfl
  · obtain ⟨-, m, -, rfl⟩ := execCkFirst_next.1 h; rfl

theorem exec_keeps_expectedLen
    (hi : i = .ss2Hit ∨ i = .hdrAcc x ∨ i = .payAcc x ∨ i = .payLast x ∨ i = .ckFirst x) (h : exec i s = .next t) :
    t.sync.expectedLen = s.sync.expectedLen := by
  obtain rfl | rfl | rfl | rfl | rfl := hi
  · obtain ⟨-, m, -, rfl⟩ := execSs2Hit_next.1 h; rfl
  · obtain ⟨-, m, -, rfl⟩ := execHdrAcc_next.1 h; rfl
  · obtain ⟨-, m, -, rfl⟩ := execPayAcc_next.1 h; rfl
  · obtain ⟨-, m, -, rfl⟩ := execPayLast_next.1 h; rfl
  · obtain ⟨-, m, -, rfl⟩ := execCkFirst_next.1 h; rfl

/-! ## R25's table after a stored byte -/

theorem take_two_append {bs : List Byte} (h : bs.take 2 = [sync1, sync2]) (x : Byte) :
    (bs ++ [x]).take 2 = [sync1, sync2] := by
  have hl := congrArg List.length h
  rw [List.length_take, List.length_cons, List.length_singleton] at hl
  rw [List.take_append_of_le_length (by omega), h]

/-- The header's length bytes are fixed once they are stored (R47). -/
theorem declaredLen_append {bs : List Byte} (h : 5 < bs.length) (x : Byte) :
    declaredLen (bs ++ [x]) = declaredLen bs := by
  rw [declaredLen, List.getElem?_append_left (by omega), List.getElem?_append_left h]
  rfl

/-- After the fourth header byte the stored header declares the Lnew that R111 computed before storing it. -/
theorem declaredLen_append_eq_lenNew {m : Memory} (hw : Memory.wf m = true) (hl : (Memory.bytes m).length = 5) (x : Byte) :
    declaredLen (Memory.bytes m ++ [x]) = lenNew m x := by
  rw [lenNew_eq hw, declaredLen, List.getElem?_append_left (by omega), ← hl, List.getElem?_concat_length]
  cases (Memory.bytes m)[4]? <;> rfl

/-- Lnew fits `expected_len`. -/
theorem lenNew_toNat {m : Memory} {len : Nat} (h : lenNew m x = some len) : (BitVec.ofNat 16 len).toNat = len := by
  obtain ⟨lo, -, rfl⟩ := Option.map_eq_some_iff.1 h
  rw [BitVec.toNat_ofNat, Nat.mod_eq_of_lt (le16_lt lo x)]

theorem count_succ_toNat {n : Half} (h : n.toNat < 65535) : (n + 1).toNat = n.toNat + 1 := by
  rw [BitVec.toNat_add]
  exact Nat.mod_eq_of_lt (Nat.succ_lt_succ h)

/-- Every storing operation leads from R25's line for its phase to the line for the phase after it. -/
theorem Stores.keeps_wf (hi : Stores i x) (h : exec i s = .next t) (hw : s.sync.wf s.cfg = true) :
    t.sync.wf s.cfg = true := by
  have hmem := Sync.wf_mem hw
  have hcan := hi.keeps_canonical h hmem
  have hbs := hi.bytes_eq h hmem
  have hlen : (Memory.bytes t.sync.buf).length = (Memory.bytes s.sync.buf).length + 1 := by
    rw [hbs, List.length_append, List.length_singleton]
  cases hi with
  | ss2Hit =>
    obtain ⟨hp, m, -, ht⟩ := execSs2Hit_next.1 h
    have hs := (Sync.wf_seekSync2 hp).1 hw
    have hb : Memory.bytes t.sync.buf = [sync1, sync2] := by rw [hbs, hs, Memory.bytes_ofBytes]; rfl
    refine (Sync.wf_readHeader (by rw [ht]; rfl)).2 ⟨hcan, by rw [hb]; rfl, ?_, ?_, ?_⟩
    · rw [hb, ht]; rfl
    · rw [ht, hs]; rfl
    · rw [ht]; exact Nat.zero_le _
  | hdrAcc =>
    obtain ⟨⟨hp, hc⟩, m, -, ht⟩ := execHdrAcc_next.1 h
    obtain ⟨-, hsync, hl, he, -⟩ := (Sync.wf_readHeader hp).1 hw
    have hcnt : t.sync.count.toNat = s.sync.count.toNat + 1 := by rw [ht]; exact count_succ_toNat (by omega)
    exact (Sync.wf_readHeader (by rw [ht]; exact hp)).2
      ⟨hcan, by rw [hbs, take_two_append hsync], by omega, by rw [ht]; exact he, by omega⟩
  | hdrLen =>
    obtain ⟨⟨hp, hc⟩, len, hn, ⟨hmax, hpos⟩, m, -, ht⟩ := execHdrLen_next.1 h
    obtain ⟨-, hsync, hl, -, -⟩ := (Sync.wf_readHeader hp).1 hw
    have hcnt : t.sync.count.toNat = 0 := by rw [ht]; rfl
    have hexp : t.sync.expectedLen.toNat = len := by rw [ht]; exact lenNew_toNat hn
    have hdecl : declaredLen (Memory.bytes t.sync.buf) = some len := by
      rw [hbs, declaredLen_append_eq_lenNew hmem (by omega), hn]
    exact (Sync.wf_readPayload (by rw [ht]; rfl)).2
      ⟨hcan, by rw [hbs, take_two_append hsync], by omega, by rw [hexp, hdecl], by omega, by omega, by omega⟩
  | hdrLenZero =>
    obtain ⟨⟨hp, hc⟩, hn, m, -, ht⟩ := execHdrLenZero_next.1 h
    obtain ⟨-, hsync, hl, -, -⟩ := (Sync.wf_readHeader hp).1 hw
    have hcnt : t.sync.count.toNat = 0 := by rw [ht]; rfl
    have hexp : t.sync.expectedLen.toNat = 0 := by rw [ht]; rfl
    have hdecl : declaredLen (Memory.bytes t.sync.buf) = some 0 := by
      rw [hbs, declaredLen_append_eq_lenNew hmem (by omega), hn]
    exact (Sync.wf_readChecksum (by rw [ht]; rfl)).2
      ⟨hcan, by rw [hbs, take_two_append hsync], by omega, by rw [hexp, hdecl], by omega, by omega⟩
  | payAcc =>
    obtain ⟨⟨hp, hc⟩, m, -, ht⟩ := execPayAcc_next.1 h
    obtain ⟨-, hsync, hl, hdecl, hpos, hmax, -⟩ := (Sync.wf_readPayload hp).1 hw
    have hexp : t.sync.expectedLen = s.sync.expectedLen := by rw [ht]; rfl
    have hcnt : t.sync.count.toNat = s.sync.count.toNat + 1 := by rw [ht]; exact count_succ_toNat (by omega)
    exact (Sync.wf_readPayload (by rw [ht]; exact hp)).2
      ⟨hcan, by rw [hbs, take_two_append hsync], by omega, by rw [hbs, declaredLen_append (by omega), hexp, hdecl],
        by rw [hexp]; exact hpos, by rw [hexp]; exact hmax, by rw [hexp, hcnt]; exact hc⟩
  | payLast =>
    obtain ⟨⟨hp, hc⟩, m, -, ht⟩ := execPayLast_next.1 h
    obtain ⟨-, hsync, hl, hdecl, -, hmax, -⟩ := (Sync.wf_readPayload hp).1 hw
    have hexp : t.sync.expectedLen = s.sync.expectedLen := by rw [ht]; rfl
    have hcnt : t.sync.count.toNat = 0 := by rw [ht]; rfl
    exact (Sync.wf_readChecksum (by rw [ht]; rfl)).2
      ⟨hcan, by rw [hbs, take_two_append hsync], by rw [hexp]; omega,
        by rw [hbs, declaredLen_append (by omega), hexp, hdecl], by rw [hexp]; exact hmax, by omega⟩
  | ckFirst =>
    obtain ⟨⟨hp, hc⟩, m, -, ht⟩ := execCkFirst_next.1 h
    obtain ⟨-, hsync, hl, hdecl, hmax, -⟩ := (Sync.wf_readChecksum hp).1 hw
    have hexp : t.sync.expectedLen = s.sync.expectedLen := by rw [ht]; rfl
    have hcnt : t.sync.count.toNat = s.sync.count.toNat + 1 := by rw [ht, hc]; rfl
    have hzero : s.sync.count.toNat = 0 := by rw [hc]; rfl
    exact (Sync.wf_readChecksum (by rw [ht]; exact hp)).2
      ⟨hcan, by rw [hbs, take_two_append hsync], by rw [hexp]; omega,
        by rw [hbs, declaredLen_append (by omega), hexp, hdecl], by rw [hexp]; exact hmax, by omega⟩

/-- Every operation keeps R25's table, from every state that meets it. -/
theorem exec_keeps_wf (h : exec i s = .next t) (hw : s.sync.wf s.cfg = true) : t.sync.wf s.cfg = true := by
  obtain hs | hs | hs | ⟨x, hi⟩ := exec_sync_cases h
  · rw [hs, hw]
  · rw [hs, reset_wf]
  · rw [hs, syncStarted_wf]
  · exact hi.keeps_wf h hw

theorem exec_keeps_stateInv (h : exec i s = .next t) (hs : StateInv s) : StateInv t := by
  obtain ⟨hc, hw⟩ := stateInv_iff.1 hs
  exact stateInv_iff.2 ⟨by rw [exec_keeps_cfg h, hc], by rw [exec_keeps_cfg h, exec_keeps_wf h hw]⟩

/-! ## One step -/

theorem stepEvent_next {e : Event} :
    stepEvent e s = .next t ↔ s.cfg.wf = true ∧ ∃ i, decodeEvent s e = .ok i ∧ exec i s = .next t := by
  unfold stepEvent
  cases s.cfg.wf <;> cases decodeEvent s e <;> simp

theorem fetch_snd (s : State) : (fetch s).2 = { s with input := s.input.tail } := by
  obtain ⟨hl, hf⟩ | ⟨e, rest, hl, hf⟩ := fetch_cases s
  · rw [hf, hl, List.tail_nil, ← hl]
  · rw [hf, hl, List.tail_cons]

/-- A step is one operation, run with the first event of the list taken. -/
theorem exec_of_step (h : step s = .next t) : ∃ i, exec i { s with input := s.input.tail } = .next t := by
  obtain ⟨-, i, -, hx⟩ := stepEvent_next.1 h
  rw [fetch_snd] at hx
  exact ⟨i, hx⟩

/-! ## A step reads the elements and the configuration alone -/

theorem eq_of_same_elements (hs : s'.sync = s.sync) (hc : s'.cfg = s.cfg) :
    s' = { s with input := s'.input, out := s'.out } := by
  rw [← hs, ← hc]

theorem stepEvent_of_same_elements {e : Event} (hs : s'.sync = s.sync) (hc : s'.cfg = s.cfg)
    (h : stepEvent e s = .next t) :
    ∃ t', stepEvent e s' = .next t' ∧ t'.sync = t.sync ∧ t'.cfg = t.cfg ∧ t'.out = t.out := by
  obtain ⟨hw, i, hd, hx⟩ := stepEvent_next.1 h
  rw [eq_of_same_elements hs hc]
  exact ⟨_, stepEvent_next.2 ⟨hw, i, hd, exec_next_of_same_elements hx _ _⟩, rfl, (exec_keeps_cfg hx).symm, rfl⟩

end

theorem runsTo_nil {s t : State} {os : List Outputs} : RunsTo s [] t os ↔ t = s ∧ os = [] := by
  simp only [RunsTo, feed, Host.Outcome.next.injEq, Prod.mk.injEq, eq_comm]

/-- A run over `e :: es` is a step on `e` and a run over `es` from there. -/
theorem runsTo_cons {s t : State} {e : Event} {es : List Event} {os : List Outputs} :
    RunsTo s (e :: es) t os ↔ ∃ u ps, stepEvent e s = .next u ∧ RunsTo u es t ps ∧ os = u.out :: ps := by
  simp only [RunsTo, feed]
  cases stepEvent e s with
  | fault => simp
  | refused => simp
  | next u =>
    cases h : feed u es with
    | fault => simp [h]
    | refused => simp [h]
    | next r =>
      obtain ⟨v, qs⟩ := r
      simp [h, eq_comm]

/-! ## The obligations -/

/-- Settles O30: the operation a step runs keeps R25's table, and taking an event touches no element. -/
theorem everyStepKeepsInvariant : Obligations.EveryStepKeepsInvariant := by
  intro s t hs h
  obtain ⟨i, hx⟩ := exec_of_step h
  exact exec_keeps_stateInv (s := { s with input := s.input.tail }) hx hs

/-- Settles O27: each of the seven is an append at the fill index that ends quietly. -/
theorem storingStepsWriteOnlyTheFillIndex : Obligations.StoringStepsWriteOnlyTheFillIndex := by
  intro s t i x hi hw he h
  have hst := stores_of_encode hi he
  have hout := hst.out_eq_quiet h
  exact ⟨by rw [hst.read_eq h hw, if_pos rfl], fun a ha => by rw [hst.read_eq h hw, if_neg ha],
    exec_keeps_cfg h, exec_keeps_input h, by rw [hout, quiet_emission], by rw [hout, quiet_diagOversize],
    fun hi => exec_keeps_phase hi h, fun hi => exec_keeps_expectedLen hi h⟩

/-- Settles O29: an operation sets elements and outputs only, and a step runs one with the first event taken. -/
theorem stepsKeepCfgAndTakeOneEvent : Obligations.StepsKeepCfgAndTakeOneEvent := by
  refine ⟨fun i s t h => ⟨exec_keeps_cfg h, exec_keeps_input h⟩, fun s t h => ?_⟩
  obtain ⟨i, hx⟩ := exec_of_step h
  exact ⟨exec_keeps_cfg (s := { s with input := s.input.tail }) hx, exec_keeps_input hx⟩

/-- Settles O32: what is not stored by an append is kept, cleared, or the one-byte buffer. -/
theorem operationsKeepBufferCanonical : Obligations.OperationsKeepBufferCanonical := by
  intro i s t hw h
  obtain hs | hs | hs | ⟨x, hi⟩ := exec_sync_cases h
  · rw [hs, hw]
  · rw [hs]; rfl
  · rw [hs]; exact Memory.wf_ofBytes [sync1]
  · exact hi.keeps_canonical h hw

/-- Settles O33: each line of R25's table gives the fill index from the phase, L and `count`. -/
theorem bufferFillIsBounded : Obligations.BufferFillIsBounded := by
  intro s hs
  obtain ⟨-, hw⟩ := stateInv_iff.1 hs
  have hmax : s.cfg.maxFrame = s.cfg.maxPayload + 8 := rfl
  cases hp : s.sync.phase with
  | seekSync1 =>
    rw [(Sync.wf_seekSync1 hp).1 hw]
    exact ⟨by decide, by change 7 ≤ s.cfg.maxFrame - 1; omega, rfl⟩
  | seekSync2 =>
    rw [(Sync.wf_seekSync2 hp).1 hw]
    exact ⟨by decide, by change 7 ≤ s.cfg.maxFrame - 1; omega, rfl⟩
  | readHeader =>
    obtain ⟨-, -, hl, he, hc⟩ := (Sync.wf_readHeader hp).1 hw
    rw [Memory.length_bytes] at hl
    exact ⟨by omega, by omega, by simp only; omega⟩
  | readPayload =>
    obtain ⟨-, -, hl, -, -, hle, hc⟩ := (Sync.wf_readPayload hp).1 hw
    rw [Memory.length_bytes] at hl
    exact ⟨by omega, by omega, by simp only; omega⟩
  | readChecksum =>
    obtain ⟨-, -, hl, -, hle, hc⟩ := (Sync.wf_readChecksum hp).1 hw
    rw [Memory.length_bytes] at hl
    exact ⟨by omega, by omega, by simp only; omega⟩

/-- Settles O42, by induction on the events: each step reads the elements and the configuration alone, and leaves both
runs with the same ones. -/
theorem runsDependOnElementsAlone : Obligations.RunsDependOnElementsAlone := by
  intro s s' es t os hs hc hrun
  induction es generalizing s s' os with
  | nil =>
    obtain ⟨rfl, rfl⟩ := runsTo_nil.1 hrun
    exact ⟨s', runsTo_nil.2 ⟨rfl, rfl⟩, hs, hc⟩
  | cons e es ih =>
    obtain ⟨u, ps, hstep, hrest, rfl⟩ := runsTo_cons.1 hrun
    obtain ⟨u', hstep', hus, huc, huo⟩ := stepEvent_of_same_elements hs hc hstep
    obtain ⟨t', hrest', ht⟩ := ih _ _ _ hus huc hrest
    exact ⟨t', runsTo_cons.2 ⟨u', ps, hstep', hrest', by rw [huo]⟩, ht⟩

end Sys2Proof.StateFamily
end

section
/-! Little-endian memory (20_memory.md): the value of two adjacent bytes, the value of a byte list as a sum of shifted
bytes, and the indices of the buffer that R47 fixes. -/

namespace Sys2Proof.MemoryFamily

open Sys2Proof.Machine

/-! ## Assembly -/

/-- The two bytes of an assembled length occupy disjoint bits, so `or` is addition. -/
theorem le16_eq_add (lo hi : Byte) : le16 lo hi = lo.toNat + 256 * hi.toNat := by
  rw [le16, Nat.or_comm, ← Nat.shiftLeft_add_eq_or_of_lt lo.isLt, Nat.shiftLeft_eq]
  omega

theorem leNat_pair (lo hi : Byte) : leNat [lo, hi] = le16 lo hi := by
  rw [le16_eq_add]
  rfl

/-- Little-endian assembly reads the bytes as digits in base 256. -/
theorem leNat_eq_ofDigits (bs : List Byte) : leNat bs = Nat.ofDigits 256 (bs.map BitVec.toNat) := by
  induction bs with
  | nil => rfl
  | cons b bs ih => rw [leNat, ih]; rfl

theorem leNat_lt (bs : List Byte) : leNat bs < 2 ^ (8 * bs.length) := by
  have hd : ∀ d ∈ bs.map BitVec.toNat, d < 256 := by
    intro d hd
    obtain ⟨b, -, rfl⟩ := List.mem_map.1 hd
    exact b.isLt
  have hlt := Nat.ofDigits_lt_base_pow_length (by decide : 1 < 256) hd
  rwa [← leNat_eq_ofDigits, List.length_map, show 256 = 2 ^ 8 from rfl, ← Nat.pow_mul] at hlt

/-- Moving a sum of shifted bytes up by one byte place multiplies it by 2^8. -/
theorem sum_shiftLeft_succ (l : List Nat) (f : Nat → Nat) :
    (l.map fun k => f k <<< (8 * (k + 1))).sum = 2 ^ 8 * (l.map fun k => f k <<< (8 * k)).sum := by
  rw [← List.sum_map_mul_left]
  congr 2
  funext k
  rw [Nat.mul_succ, Nat.shiftLeft_eq, Nat.shiftLeft_eq, Nat.pow_add, ← Nat.mul_assoc, Nat.mul_comm]

/-- Little-endian assembly is the sum of the bytes, each shifted to its place (R41). -/
theorem leNat_eq_sum (bs : List Byte) :
    leNat bs = ((List.range bs.length).map fun k => (bs.getD k 0).toNat <<< (8 * k)).sum := by
  induction bs with
  | nil => rfl
  | cons b bs ih =>
    rw [leNat, ih, ← sum_shiftLeft_succ, List.length_cons, List.range_succ_eq_map, List.map_cons, List.sum_cons,
      List.map_map]
    rfl

/-! ## Reading the buffer -/

/-- `BufRead(a, 2)` of two bytes the buffer holds. -/
theorem bufRead_two {m : Memory} {a : Nat} {lo hi : Byte} (hlo : Memory.read m a = some lo)
    (hhi : Memory.read m (a + 1) = some hi) : bufRead m a 2 = some (le16 lo hi) := by
  simp only [bufRead, Memory.readN, hlo, hhi, Option.map_some, leNat_pair]

theorem declaredLen_eq_some {bs : List Byte} {n : Nat} :
    declaredLen bs = some n ↔ ∃ lo hi, bs[4]? = some lo ∧ bs[5]? = some hi ∧ le16 lo hi = n := by
  rw [declaredLen]
  cases bs[4]? <;> cases bs[5]? <;> simp

/-- The length R25's table speaks of is the one `BufRead(4, 2)` reads (R47, R64). -/
theorem bufRead_of_declaredLen {m : Memory} {n : Nat} (hw : Memory.wf m = true)
    (h : declaredLen (Memory.bytes m) = some n) : bufRead m 4 2 = some n := by
  obtain ⟨lo, hi, hlo, hhi, rfl⟩ := declaredLen_eq_some.1 h
  exact bufRead_two (by rw [Memory.read_eq hw, hlo]) (by rw [Memory.read_eq hw, hhi])

theorem read_of_length_le {m : Memory} {a : Nat} (hw : Memory.wf m = true) (h : m.length ≤ a) :
    Memory.read m a = none := by
  rw [Memory.read_eq hw, List.getElem?_eq_none (by rw [Memory.length_bytes]; exact h)]

/-! ## The indices R47 fixes -/

section
variable {c : Cfg} {s : Sync}

/-- From the header on, R25's table has the sync pair in front. -/
theorem take_two_of_wf (hw : s.wf c = true) (h1 : s.phase ≠ .seekSync1) (h2 : s.phase ≠ .seekSync2) :
    (Memory.bytes s.buf).take 2 = [sync1, sync2] := by
  cases hp : s.phase with
  | seekSync1 => exact absurd hp h1
  | seekSync2 => exact absurd hp h2
  | readHeader => obtain ⟨-, hsync, -⟩ := (Sync.wf_readHeader hp).1 hw; exact hsync
  | readPayload => obtain ⟨-, hsync, -⟩ := (Sync.wf_readPayload hp).1 hw; exact hsync
  | readChecksum => obtain ⟨-, hsync, -⟩ := (Sync.wf_readChecksum hp).1 hw; exact hsync

/-- Both bytes of the sync pair can be read where the table has the pair in front. -/
theorem read_syncPair (hw : s.wf c = true) (h1 : s.phase ≠ .seekSync1) (h2 : s.phase ≠ .seekSync2) :
    Memory.read s.buf 0 = some sync1 ∧ Memory.read s.buf 1 = some sync2 := by
  have hread : ∀ i < 2, Memory.read s.buf i = [sync1, sync2][i]? := by
    intro i hi
    rw [Memory.read_eq (Sync.wf_mem hw), ← take_two_of_wf hw h1 h2, List.getElem?_take_of_lt hi]
  exact ⟨hread 0 (by decide), hread 1 (by decide)⟩

theorem read_zero_of_wf (hw : s.wf c = true) (h1 : s.phase ≠ .seekSync1) : Memory.read s.buf 0 = some sync1 := by
  by_cases h2 : s.phase = .seekSync2
  · rw [(Sync.wf_seekSync2 h2).1 hw, Memory.read_ofBytes]
    rfl
  · exact (read_syncPair hw h1 h2).1

theorem declaredLen_of_wf (hw : s.wf c = true) (hp : s.phase = .readPayload ∨ s.phase = .readChecksum) :
    declaredLen (Memory.bytes s.buf) = some s.expectedLen.toNat := by
  obtain hp | hp := hp
  · obtain ⟨-, -, -, hdecl, -⟩ := (Sync.wf_readPayload hp).1 hw
    exact hdecl
  · obtain ⟨-, -, -, hdecl, -⟩ := (Sync.wf_readChecksum hp).1 hw
    exact hdecl

end

/-! ## The obligations -/

/-- Settles O34: R25's table gives the sync pair and the declared length, and O33's bound on the fill index gives the
indices that hold nothing. -/
theorem bufferIndexMap : Obligations.BufferIndexMap := by
  intro s hs
  obtain ⟨-, hw⟩ := StateFamily.stateInv_iff.1 hs
  have hmem := Sync.wf_mem hw
  obtain ⟨hfill, hcap, -⟩ := StateFamily.bufferFillIsBounded s hs
  exact ⟨read_zero_of_wf hw, fun h1 h2 => (read_syncPair hw h1 h2).2,
    fun hp => bufRead_of_declaredLen hmem (declaredLen_of_wf hw hp),
    fun a ha => read_of_length_le hmem (hfill.trans (hcap.trans ha))⟩

/-- Settles O58: the read assembles the two bytes, whose bits do not overlap. -/
theorem lengthIsLittleEndian : Obligations.LengthIsLittleEndian := fun lo hi _ _ hlo hhi =>
  ⟨bufRead_two hlo hhi, le16_eq_add lo hi, Nat.le_of_lt_succ (le16_lt lo hi)⟩

/-- Settles O59: byte `k` of the field is byte `o + k` of the payload. -/
theorem fieldIsLittleEndianSum : Obligations.FieldIsLittleEndianSum := by
  intro p o w h
  have hlen : ((p.drop o).take w).length = w :=
    List.length_take_of_le (by rw [List.length_drop]; omega)
  have hbyte : ∀ k ∈ List.range w, ((p.drop o).take w).getD k 0 = p.getD (o + k) 0 := by
    intro k hk
    rw [List.getD_eq_getElem?_getD, List.getElem?_take_of_lt (List.mem_range.1 hk), List.getElem?_drop,
      ← List.getD_eq_getElem?_getD]
  constructor
  · rw [leNat_eq_sum, hlen]
    exact congrArg List.sum (List.map_congr_left fun k hk => by rw [hbyte k hk])
  · have hlt := leNat_lt ((p.drop o).take w)
    rwa [hlen] at hlt

end Sys2Proof.MemoryFamily
end

section
/-! Encoding (30_encoding.md): the operation a byte selects, as one relation to which the decoder (R68), the table's rows
(R71) and the meanings are each tied; checksum bytes below the modulus (R76); the operands of FIELD and FRAME (R66,
R150). -/

namespace Sys2Proof.EncodingFamily

open Sys2Proof.Machine Sys2Proof.Laws

/-! ## R68's table as a relation -/

/-- R68's table, one constructor per step operation: the byte and what it asks of the state. -/
inductive Selects (s : State) : Byte → Instr → Prop
  | ss1Hit (hp : s.sync.phase = .seekSync1) : Selects s sync1 .ss1Hit
  | ss1Skip {x : Byte} (hp : s.sync.phase = .seekSync1) (h1 : x ≠ sync1) : Selects s x (.ss1Skip x)
  | ss2Hit (hp : s.sync.phase = .seekSync2) : Selects s sync2 .ss2Hit
  | ss2Restart (hp : s.sync.phase = .seekSync2) : Selects s sync1 .ss2Restart
  | ss2Miss {x : Byte} (hp : s.sync.phase = .seekSync2) (h2 : x ≠ sync2) (h1 : x ≠ sync1) : Selects s x (.ss2Miss x)
  | hdrAcc {x : Byte} (hp : s.sync.phase = .readHeader) (hc : s.sync.count.toNat < 3) : Selects s x (.hdrAcc x)
  | hdrLen {x : Byte} {len : Nat} (hp : s.sync.phase = .readHeader) (hc : s.sync.count.toNat = 3)
      (hn : lenNew s.sync.buf x = some len) (hpos : 1 ≤ len) (hmax : len ≤ s.cfg.maxPayload) : Selects s x (.hdrLen x)
  | hdrLenZero (hp : s.sync.phase = .readHeader) (hc : s.sync.count.toNat = 3)
      (hn : lenNew s.sync.buf 0x00 = some 0) : Selects s 0x00 .hdrLenZero
  | hdrOversize {x : Byte} {len : Nat} (hp : s.sync.phase = .readHeader) (hc : s.sync.count.toNat = 3)
      (hn : lenNew s.sync.buf x = some len) (hover : s.cfg.maxPayload < len) : Selects s x (.hdrOversize x)
  | payAcc {x : Byte} (hp : s.sync.phase = .readPayload)
      (hc : s.sync.count.toNat + 1 < s.sync.expectedLen.toNat) : Selects s x (.payAcc x)
  | payLast {x : Byte} (hp : s.sync.phase = .readPayload)
      (hc : s.sync.count.toNat + 1 = s.sync.expectedLen.toNat) : Selects s x (.payLast x)
  | ckFirst {x : Byte} (hp : s.sync.phase = .readChecksum) (hc : s.sync.count = 0) : Selects s x (.ckFirst x)
  | ckFail {x : Byte} {v : CkView} (hp : s.sync.phase = .readChecksum) (hc : s.sync.count = 1)
      (hv : ckView s.sync = some v) (hk : ckOk s.cfg v x = false) : Selects s x (.ckFail x)
  | ckOkDecoded {x : Byte} {v : CkView} (hp : s.sync.phase = .readChecksum) (hc : s.sync.count = 1)
      (hv : ckView s.sync = some v) (hk : ckOk s.cfg v x = true)
      (hl : known s.cfg v.cls v.id s.sync.expectedLen.toNat = true) : Selects s x (.ckOkDecoded x)
  | ckOkUnknown {x : Byte} {v : CkView} (hp : s.sync.phase = .readChecksum) (hc : s.sync.count = 1)
      (hv : ckView s.sync = some v) (hk : ckOk s.cfg v x = true)
      (hl : known s.cfg v.cls v.id s.sync.expectedLen.toNat = false) : Selects s x (.ckOkUnknown x)

section
variable {s t : State} {x : Byte} {i : Instr}

theorem Selects.encode_eq (h : Selects s x i) : encode i = [x] := by
  cases h <;> rfl

theorem Selects.wellFormed (h : Selects s x i) : i.wellFormed = true := by
  cases h with
  | ss1Skip hp h1 => simpa only [Instr.wellFormed, bne_iff_ne] using h1
  | ss2Miss hp h2 h1 => simpa only [Instr.wellFormed, Bool.and_eq_true, bne_iff_ne] using ⟨h2, h1⟩
  | _ => rfl

/-! ## The decoder -/

/-- What is selected is the decoder's answer. -/
theorem Selects.decodeByte_eq (h : Selects s x i) : decodeByte s x = .ok i := by
  cases h with
  | ss1Hit hp => simp [decodeByte, hp]
  | ss1Skip hp h1 => simp [decodeByte, hp, h1]
  | ss2Hit hp => simp [decodeByte, hp]
  | ss2Restart hp => simp [decodeByte, hp, show sync1 ≠ sync2 by decide]
  | ss2Miss hp h2 h1 => simp [decodeByte, hp, h2, h1]
  | hdrAcc hp hc => simp [decodeByte, hp, hc]
  | hdrLen hp hc hn hpos hmax => simp [decodeByte, hp, hc, hn, oversize, Nat.not_lt.2 hmax, Nat.ne_of_gt hpos]
  | hdrLenZero hp hc hn => simp only [decodeByte, hp, hc, hn]; simp [oversize]
  | hdrOversize hp hc hn hover => simp [decodeByte, hp, hc, hn, oversize, hover]
  | payAcc hp hc => simp [decodeByte, hp, hc]
  | payLast hp hc => simp [decodeByte, hp, hc]
  | ckFirst hp hc => simp [decodeByte, hp, hc]
  | ckFail hp hc hv hk => simp [decodeByte, hp, hc, hv, hk]
  | ckOkDecoded hp hc hv hk hl => simp [decodeByte, hp, hc, hv, hk, hl]
  | ckOkUnknown hp hc hv hk hl => simp [decodeByte, hp, hc, hv, hk, hl]

/-- One byte selects one operation. -/
theorem Selects.unique {j : Instr} (hi : Selects s x i) (hj : Selects s x j) : i = j :=
  Except.ok.inj (hi.decodeByte_eq.symm.trans hj.decodeByte_eq)

/-! ## The meanings -/

/-- An operation that answers a next state is selected by its word (log 10). -/
theorem selects_of_exec (he : encode i = [x]) (h : exec i s = .next t) : Selects s x i := by
  cases i <;> cases he
  case ss1Hit => obtain ⟨hp, -⟩ := execSs1Hit_next.1 h; exact .ss1Hit hp
  case ss1Skip => obtain ⟨⟨hp, h1⟩, -⟩ := execSs1Skip_next.1 h; exact .ss1Skip hp h1
  case ss2Hit => obtain ⟨hp, -⟩ := execSs2Hit_next.1 h; exact .ss2Hit hp
  case ss2Restart => obtain ⟨hp, -⟩ := execSs2Restart_next.1 h; exact .ss2Restart hp
  case ss2Miss => obtain ⟨⟨⟨hp, h2⟩, h1⟩, -⟩ := execSs2Miss_next.1 h; exact .ss2Miss hp h2 h1
  case hdrAcc => obtain ⟨⟨hp, hc⟩, -⟩ := execHdrAcc_next.1 h; exact .hdrAcc hp hc
  case hdrLen =>
    obtain ⟨⟨hp, hc⟩, len, hn, ⟨hmax, hpos⟩, -⟩ := execHdrLen_next.1 h
    exact .hdrLen hp hc hn hpos hmax
  case hdrLenZero => obtain ⟨⟨hp, hc⟩, hn, -⟩ := execHdrLenZero_next.1 h; exact .hdrLenZero hp hc hn
  case hdrOversize =>
    obtain ⟨⟨hp, hc⟩, len, hn, hover, -⟩ := execHdrOversize_next.1 h
    exact .hdrOversize hp hc hn hover
  case payAcc => obtain ⟨⟨hp, hc⟩, -⟩ := execPayAcc_next.1 h; exact .payAcc hp hc
  case payLast => obtain ⟨⟨hp, hc⟩, -⟩ := execPayLast_next.1 h; exact .payLast hp hc
  case ckFirst => obtain ⟨⟨hp, hc⟩, -⟩ := execCkFirst_next.1 h; exact .ckFirst hp hc
  case ckFail => obtain ⟨⟨hp, hc⟩, v, hv, hk, -⟩ := execCkFail_next.1 h; exact .ckFail hp hc hv hk
  case ckOkDecoded =>
    obtain ⟨⟨hp, hc⟩, v, hv, hk, l, hl, -⟩ := execCkOkDecoded_next.1 h
    exact .ckOkDecoded hp hc hv hk (by rw [known, hl, Option.isSome_some])
  case ckOkUnknown =>
    obtain ⟨⟨hp, hc⟩, v, hv, ⟨hk, hl⟩, -⟩ := execCkOkUnknown_next.1 h
    exact .ckOkUnknown hp hc hv hk hl

/-! ## The table's rows -/

theorem lenInRange_holds : RowCond.lenInRange.holds s x = true ↔
    ∃ len, lenNew s.sync.buf x = some len ∧ 1 ≤ len ∧ len ≤ s.cfg.maxPayload := by
  simp only [RowCond.holds, Option.any_eq_true, Bool.and_eq_true, decide_eq_true_eq]

theorem lenZero_holds : RowCond.lenZero.holds s x = true ↔ lenNew s.sync.buf x = some 0 := by
  simp only [RowCond.holds, Option.any_eq_true, decide_eq_true_eq, exists_eq_right]

theorem lenOver_holds : RowCond.lenOver.holds s x = true ↔
    ∃ len, lenNew s.sync.buf x = some len ∧ s.cfg.maxPayload < len := by
  simp only [RowCond.holds, Option.any_eq_true, decide_eq_true_eq, gt_iff_lt]

theorem ckBad_holds : RowCond.ckBad.holds s x = true ↔ ∃ v, ckView s.sync = some v ∧ ckOk s.cfg v x = false := by
  simp only [RowCond.holds, Option.any_eq_true, Bool.not_eq_true']

theorem ckKnown_holds : RowCond.ckKnown.holds s x = true ↔ ∃ v, ckView s.sync = some v ∧ ckOk s.cfg v x = true ∧
    known s.cfg v.cls v.id s.sync.expectedLen.toNat = true := by
  simp only [RowCond.holds, Option.any_eq_true, Bool.and_eq_true]

theorem ckUnknown_holds : RowCond.ckUnknown.holds s x = true ↔ ∃ v, ckView s.sync = some v ∧ ckOk s.cfg v x = true ∧
    known s.cfg v.cls v.id s.sync.expectedLen.toNat = false := by
  simp only [RowCond.holds, Option.any_eq_true, Bool.and_eq_true, Bool.not_eq_true']

theorem row_holds_iff {r : Row} : r.holds s x = true ↔
    s.sync.phase = r.phase ∧ r.count.holds s.sync.count.toNat = true ∧ r.cond.holds s x = true ∧
      x &&& r.mask = r.matchBits ∧ r.excluded.contains x = false := by
  simp only [Row.holds, Bool.and_eq_true, decide_eq_true_eq, Bool.not_eq_true', and_assoc]

/-- The word of a selected operation satisfies its row's match, mask and excluded bytes, so its row holds where the phase,
the count and the condition do. -/
theorem Selects.row_holds_of {r : Row} (h : Selects s x i) (hword : EncodedWord.Statement i) (hr : rowOf i = some r)
    (hp : s.sync.phase = r.phase) (hc : r.count.holds s.sync.count.toNat = true) (hk : r.cond.holds s x = true) :
    selectedByRow s x i = true := by
  simp only [EncodedWord.Statement, hr, h.encode_eq, List.singleton_inj] at hword
  obtain ⟨b, rfl, hb⟩ := hword
  rw [selectedByRow, hr, Option.any_some]
  exact row_holds_iff.2 ⟨hp, hc, hk, hb h.wellFormed⟩

/-- Under R25 nothing is counted while a sync byte is sought (R24). -/
theorem count_eq_zero_of_seek {c : Cfg} {sy : Sync} (hw : sy.wf c = true)
    (hp : sy.phase = .seekSync1 ∨ sy.phase = .seekSync2) : sy.count = 0 := by
  obtain hp | hp := hp
  · rw [(Sync.wf_seekSync1 hp).1 hw]; rfl
  · rw [(Sync.wf_seekSync2 hp).1 hw]

/-- Under R25 the row of a selected operation holds. -/
theorem Selects.row_holds (h : Selects s x i) (hw : s.sync.wf s.cfg = true) : selectedByRow s x i = true := by
  have hseek := count_eq_zero_of_seek hw
  have hsel := h
  cases h with
  | ss1Hit hp => exact hsel.row_holds_of EncodedWord.ss1Hit rfl hp (by rw [hseek (.inl hp)]; rfl) rfl
  | ss1Skip hp => exact hsel.row_holds_of (EncodedWord.ss1Skip _) rfl hp (by rw [hseek (.inl hp)]; rfl) rfl
  | ss2Hit hp => exact hsel.row_holds_of EncodedWord.ss2Hit rfl hp (by rw [hseek (.inr hp)]; rfl) rfl
  | ss2Restart hp => exact hsel.row_holds_of EncodedWord.ss2Restart rfl hp (by rw [hseek (.inr hp)]; rfl) rfl
  | ss2Miss hp => exact hsel.row_holds_of (EncodedWord.ss2Miss _) rfl hp (by rw [hseek (.inr hp)]; rfl) rfl
  | hdrAcc hp hc => exact hsel.row_holds_of (EncodedWord.hdrAcc _) rfl hp (decide_eq_true hc) rfl
  | hdrLen hp hc hn hpos hmax =>
    exact hsel.row_holds_of (EncodedWord.hdrLen _) rfl hp (decide_eq_true hc) (lenInRange_holds.2 ⟨_, hn, hpos, hmax⟩)
  | hdrLenZero hp hc hn => exact hsel.row_holds_of EncodedWord.hdrLenZero rfl hp (decide_eq_true hc) (lenZero_holds.2 hn)
  | hdrOversize hp hc hn hover =>
    exact hsel.row_holds_of (EncodedWord.hdrOversize _) rfl hp (decide_eq_true hc) (lenOver_holds.2 ⟨_, hn, hover⟩)
  | payAcc hp hc => exact hsel.row_holds_of (EncodedWord.payAcc _) rfl hp rfl (decide_eq_true hc)
  | payLast hp hc => exact hsel.row_holds_of (EncodedWord.payLast _) rfl hp rfl (decide_eq_true hc)
  | ckFirst hp hc => exact hsel.row_holds_of (EncodedWord.ckFirst _) rfl hp (by rw [hc]; rfl) rfl
  | ckFail hp hc hv hk =>
    exact hsel.row_holds_of (EncodedWord.ckFail _) rfl hp (by rw [hc]; rfl) (ckBad_holds.2 ⟨_, hv, hk⟩)
  | ckOkDecoded hp hc hv hk hl =>
    exact hsel.row_holds_of (EncodedWord.ckOkDecoded _) rfl hp (by rw [hc]; rfl) (ckKnown_holds.2 ⟨_, hv, hk, hl⟩)
  | ckOkUnknown hp hc hv hk hl =>
    exact hsel.row_holds_of (EncodedWord.ckOkUnknown _) rfl hp (by rw [hc]; rfl) (ckUnknown_holds.2 ⟨_, hv, hk, hl⟩)

/-- A row with the full mask fixes its byte (R71). -/
theorem eq_of_full_mask {b : Byte} (h : x &&& 0xFF = b) : x = b := by
  rwa [show (0xFF : Byte) = BitVec.allOnes 8 from rfl, BitVec.and_allOnes] at h

theorem ne_of_excluded {b : Byte} {l : List Byte} (h : l.contains x = false) (hb : b ∈ l) : x ≠ b := by
  rintro rfl
  rw [List.contains_iff_mem.2 hb] at h
  cases h

/-- A step operation whose row holds for the byte is selected. -/
theorem selects_of_row (hi : i ∈ stepCandidates x) (h : selectedByRow s x i = true) : Selects s x i := by
  obtain ⟨r, hr, hrow⟩ := (Option.any_eq_true _ _).1 h
  obtain ⟨hp, hc, hk, hm, hx⟩ := row_holds_iff.1 hrow
  cases i <;> cases hr
  case ss1Hit => obtain rfl := eq_of_full_mask hm; exact .ss1Hit hp
  case ss2Hit => obtain rfl := eq_of_full_mask hm; exact .ss2Hit hp
  case ss2Restart => obtain rfl := eq_of_full_mask hm; exact .ss2Restart hp
  case hdrLenZero =>
    obtain rfl := eq_of_full_mask hm
    exact .hdrLenZero hp (of_decide_eq_true hc) (lenZero_holds.1 hk)
  -- The other eleven carry their byte, which is the one consumed.
  all_goals
    rename_i y
    obtain rfl : y = x := by simpa [stepCandidates] using hi
  case ss1Skip => exact .ss1Skip hp (ne_of_excluded hx (by decide))
  case ss2Miss => exact .ss2Miss hp (ne_of_excluded hx (by decide)) (ne_of_excluded hx (by decide))
  case hdrAcc => exact .hdrAcc hp (of_decide_eq_true hc)
  case hdrLen =>
    obtain ⟨len, hn, hpos, hmax⟩ := lenInRange_holds.1 hk
    exact .hdrLen hp (of_decide_eq_true hc) hn hpos hmax
  case hdrOversize =>
    obtain ⟨len, hn, hover⟩ := lenOver_holds.1 hk
    exact .hdrOversize hp (of_decide_eq_true hc) hn hover
  case payAcc => exact .payAcc hp (of_decide_eq_true hk)
  case payLast => exact .payLast hp (of_decide_eq_true hk)
  case ckFirst => exact .ckFirst hp (BitVec.eq_of_toNat_eq (of_decide_eq_true hc))
  case ckFail =>
    obtain ⟨v, hv, hbad⟩ := ckBad_holds.1 hk
    exact .ckFail hp (BitVec.eq_of_toNat_eq (of_decide_eq_true hc)) hv hbad
  case ckOkDecoded =>
    obtain ⟨v, hv, hok, hl⟩ := ckKnown_holds.1 hk
    exact .ckOkDecoded hp (BitVec.eq_of_toNat_eq (of_decide_eq_true hc)) hv hok hl
  case ckOkUnknown =>
    obtain ⟨v, hv, hok, hl⟩ := ckUnknown_holds.1 hk
    exact .ckOkUnknown hp (BitVec.eq_of_toNat_eq (of_decide_eq_true hc)) hv hok hl

/-- An instruction whose one word is the byte is among the 15 step operations for it. -/
theorem mem_stepCandidates (he : encode i = [x]) : i ∈ stepCandidates x := by
  cases i <;> cases he <;> simp [stepCandidates]

/-! ## Some operation is selected -/

/-- Under R25 the buffer holds what the CK_B step reads of it (R121). -/
theorem ckView_of_wf {c : Cfg} {sy : Sync} (hw : sy.wf c = true) (hp : sy.phase = .readChecksum) (hc : sy.count = 1) :
    ∃ v, ckView sy = some v ∧ Memory.read sy.buf (6 + sy.expectedLen.toNat) = some v.ckA := by
  obtain ⟨hm, -, hl, -⟩ := (Sync.wf_readChecksum hp).1 hw
  have hone : sy.count.toNat = 1 := by rw [hc]; rfl
  have hread : ∀ a < (Memory.bytes sy.buf).length, ∃ b, Memory.read sy.buf a = some b := fun a ha =>
    ⟨_, (Memory.read_eq hm a).trans (List.getElem?_eq_getElem ha)⟩
  obtain ⟨cls, hcls⟩ := hread 2 (by omega)
  obtain ⟨id, hid⟩ := hread 3 (by omega)
  obtain ⟨ckA, hckA⟩ := hread (6 + sy.expectedLen.toNat) (by omega)
  rw [Memory.length_bytes] at hl
  exact ⟨_, by rw [ckView, hcls, hid, hckA, Memory.readN_eq hm (by omega), Memory.readN_eq hm (by omega)], hckA⟩

/-- Under R25 the header step finds lenLo in the buffer (R111). -/
theorem lenNew_of_wf {c : Cfg} {sy : Sync} (hw : sy.wf c = true) (hp : sy.phase = .readHeader)
    (hc : sy.count.toNat = 3) (x : Byte) : ∃ len, lenNew sy.buf x = some len := by
  obtain ⟨hm, -, hl, -⟩ := (Sync.wf_readHeader hp).1 hw
  exact ⟨_, by rw [lenNew_eq hm, List.getElem?_eq_getElem (by omega), Option.map_some]⟩

/-- A zero length has a zero high byte, so HDR_LEN_ZERO's word is 0x00 (R113). -/
theorem eq_zero_of_lenNew_eq_zero {m : Memory} (h : lenNew m x = some 0) : x = 0x00 := by
  obtain ⟨lo, -, hz⟩ := Option.map_eq_some_iff.1 h
  rw [MemoryFamily.le16_eq_add] at hz
  exact BitVec.eq_of_toNat_eq (by change x.toNat = 0; omega)

/-- R25's states are covered: every byte selects an operation (R68). -/
theorem exists_selects (hw : s.sync.wf s.cfg = true) (x : Byte) : ∃ i, Selects s x i := by
  cases hp : s.sync.phase with
  | seekSync1 =>
    by_cases h1 : x = sync1
    · exact ⟨.ss1Hit, h1 ▸ .ss1Hit hp⟩
    · exact ⟨_, .ss1Skip hp h1⟩
  | seekSync2 =>
    by_cases h2 : x = sync2
    · exact ⟨.ss2Hit, h2 ▸ .ss2Hit hp⟩
    · by_cases h1 : x = sync1
      · exact ⟨.ss2Restart, h1 ▸ .ss2Restart hp⟩
      · exact ⟨_, .ss2Miss hp h2 h1⟩
  | readHeader =>
    obtain ⟨-, -, -, -, hle⟩ := (Sync.wf_readHeader hp).1 hw
    obtain hc | hc := Nat.lt_or_eq_of_le hle
    · exact ⟨_, .hdrAcc hp hc⟩
    · obtain ⟨len, hn⟩ := lenNew_of_wf hw hp hc x
      by_cases hover : s.cfg.maxPayload < len
      · exact ⟨_, .hdrOversize hp hc hn hover⟩
      · obtain rfl | hpos := Nat.eq_zero_or_pos len
        · obtain rfl := eq_zero_of_lenNew_eq_zero hn
          exact ⟨_, .hdrLenZero hp hc hn⟩
        · exact ⟨_, .hdrLen hp hc hn hpos (Nat.le_of_not_lt hover)⟩
  | readPayload =>
    obtain ⟨-, -, -, -, -, -, hlt⟩ := (Sync.wf_readPayload hp).1 hw
    obtain hc | hc := Nat.lt_or_eq_of_le hlt
    · exact ⟨_, .payAcc hp hc⟩
    · exact ⟨_, .payLast hp hc⟩
  | readChecksum =>
    obtain ⟨-, -, -, -, -, hle⟩ := (Sync.wf_readChecksum hp).1 hw
    obtain h0 | h1 := Nat.le_one_iff_eq_zero_or_eq_one.1 hle
    · exact ⟨_, .ckFirst hp (BitVec.eq_of_toNat_eq h0)⟩
    · have hc : s.sync.count = 1 := BitVec.eq_of_toNat_eq h1
      obtain ⟨v, hv, -⟩ := ckView_of_wf hw hp hc
      cases hk : ckOk s.cfg v x with
      | false => exact ⟨_, .ckFail hp hc hv hk⟩
      | true =>
        cases hl : known s.cfg v.cls v.id s.sync.expectedLen.toNat with
        | false => exact ⟨_, .ckOkUnknown hp hc hv hk hl⟩
        | true => exact ⟨_, .ckOkDecoded hp hc hv hk hl⟩

/-- Under R25 the decoder is R68's table: it answers what is selected, and something is. -/
theorem decodeByte_eq_ok (hw : s.sync.wf s.cfg = true) : decodeByte s x = .ok i ↔ Selects s x i := by
  obtain ⟨j, hj⟩ := exists_selects hw x
  refine ⟨fun h => ?_, Selects.decodeByte_eq⟩
  obtain rfl := Except.ok.inj (hj.decodeByte_eq.symm.trans h)
  exact hj

/-- The operations whose row holds are the one selected: the 15 are distinct (R68). -/
theorem Selects.filter_candidates (h : Selects s x i) (hw : s.sync.wf s.cfg = true) :
    (stepCandidates x).filter (selectedByRow s x) = [i] := by
  have hrow : ∀ j ∈ stepCandidates x, selectedByRow s x j = (j == i) := fun j hj =>
    Bool.eq_iff_iff.2 ⟨fun hr => beq_iff_eq.2 ((selects_of_row hj hr).unique h),
      fun he => beq_iff_eq.1 he ▸ h.row_holds hw⟩
  have hnodup : (stepCandidates x).Nodup := by simp [stepCandidates]
  rw [List.filter_congr hrow, List.filter_beq, List.count_eq_one_of_mem hnodup (mem_stepCandidates h.encode_eq),
    List.replicate_one]

end

/-! ## Checksum bytes -/

/-- Both accumulators stay below the modulus (R90). -/
theorem checksum_lt {m : Nat} (hm : 0 < m) (bs : List Byte) :
    (checksum m bs).1.toNat < m ∧ (checksum m bs).2.toNat < m := by
  have hmod (n : Nat) : (BitVec.ofNat 8 (n % m)).toNat < m := by
    rw [BitVec.toNat_ofNat]
    exact (Nat.mod_le _ _).trans_lt (Nat.mod_lt n hm)
  obtain rfl | ⟨bs, x, rfl⟩ := List.eq_nil_or_concat bs
  · exact ⟨hm, hm⟩
  · rw [checksum, List.concat_eq_append, List.foldl_concat]
    exact ⟨hmod _, hmod _⟩

/-- A verified pair lies below the modulus (R93, R95). -/
theorem lt_of_verify {m : Nat} (hm : 0 < m) {bs : List Byte} {a b : Byte} (hv : verify m bs a b = true) :
    a.toNat < m ∧ b.toNat < m := by
  simp only [verify, Bool.and_eq_true, beq_iff_eq] at hv
  obtain ⟨rfl, rfl⟩ := hv
  exact checksum_lt hm bs

/-! ## Field operands -/

theorem fieldOf_eq_none {p : List Byte} {o w : Nat} {sg : Bool} :
    fieldOf p o w sg = none ↔ w = 0 ∨ 8 < w ∨ p.length < o + w := by
  simp only [fieldOf, fieldOperandsOk, ite_eq_right_iff, reduceCtorEq, imp_false, Bool.and_eq_true, decide_eq_true_eq]
  omega

/-- A field between two parts of a payload has the value of its own bytes (R66). -/
theorem fieldOf_middle (pre f post : List Byte) (sg : Bool) (h1 : 1 ≤ f.length) (h8 : f.length ≤ 8) :
    fieldOf (pre ++ f ++ post) pre.length f.length sg = some (fieldValue sg f.length (leNat f)) := by
  have hin : pre.length + f.length ≤ (pre ++ f ++ post).length := by simp
  rw [fieldOf, if_pos (by simp only [fieldOperandsOk, h1, h8, hin, decide_true, Bool.and_self]), List.append_assoc,
    List.drop_left, List.take_left]

theorem delivers_of_next {o : Host.Outcome State Fault Refusal} {s : State} {v : Value}
    (h : o = .next (delivering v s)) : Delivers o s v :=
  ⟨_, h, delivering_sync s v, delivering_cfg s v, delivering_input s v, delivering_value s v, delivering_emission s v,
    delivering_diagOversize s v⟩

theorem execField_refused {s : State} {p : List Byte} {o w : Nat} {sg : Bool} :
    execField p o w sg s = .refused .fieldOperands ↔ fieldOf p o w sg = none := by
  rw [execField]
  cases fieldOf p o w sg with
  | none => exact iff_of_true rfl rfl
  | some v => exact iff_of_false nofun nofun

theorem execFrame_refused {s : State} {cls id : Byte} {p : List Byte} :
    execFrame cls id p s = .refused .frameOperands ↔ 65535 < p.length := by
  rw [execFrame]
  split
  case isTrue h => exact iff_of_false nofun (Nat.not_lt.2 h)
  case isFalse h => exact iff_of_true rfl (Nat.lt_of_not_le h)

/-! ## The obligations -/

/-- Settles O35: both sides say that R68's table selects `i` for the byte. -/
theorem decodeEncodeAgree : Obligations.DecodeEncodeAgree := by
  intro s x i hs
  obtain ⟨-, hw⟩ := StateFamily.stateInv_iff.1 hs
  rw [decodeByte_eq_ok hw]
  constructor
  · exact fun h => ⟨h.encode_eq, h.wellFormed, h.row_holds hw⟩
  · rintro ⟨he, -, hrow⟩
    exact selects_of_row (mem_stepCandidates he) hrow

/-- Settles O36: R25's states are covered by R68's table, and one byte selects one operation. -/
theorem exactlyOneRowHolds : Obligations.ExactlyOneRowHolds := by
  intro s x hs
  obtain ⟨-, hw⟩ := StateFamily.stateInv_iff.1 hs
  obtain ⟨i, hi⟩ := exists_selects hw x
  exact ⟨i, hi.decodeByte_eq, hi.filter_candidates hw⟩

/-- Settles O24: FIELD delivers `fieldValue` of the bytes it is pointed at, which is the pattern itself when unsigned and
`sext` of it when signed. -/
theorem fieldDeliversItsValue : Obligations.FieldDeliversItsValue := by
  intro s pre f post h1 h8
  have hfield (sg : Bool) : Delivers (exec (.field (pre ++ f ++ post) pre.length f.length sg) s) s
      (.int (fieldValue sg f.length (leNat f))) :=
    delivers_of_next (execField_next.2 ⟨_, fieldOf_middle pre f post sg h1 h8, rfl⟩)
  exact ⟨hfield false, hfield true⟩

/-- Settles O26: FIELD refuses where `fieldOf` has no value, FRAME where its length test fails. -/
theorem functionsRefuseOutsideTheirOperands : Obligations.FunctionsRefuseOutsideTheirOperands :=
  fun _ _ _ _ _ _ _ => ⟨execField_refused.trans fieldOf_eq_none, execFrame_refused⟩

/-- Settles O38: an operation that answers holds R68's condition on its operands. -/
theorem operationsRunOnlyWhereSelected : Obligations.OperationsRunOnlyWhereSelected :=
  fun _ _ _ _ _ he h => (selects_of_exec he h).decodeByte_eq

/-- Settles O57: under 255 no computed byte is 0xFF, so the received pair cannot verify. -/
theorem ffChecksumByteFailsUnder255 : Obligations.FfChecksumByteFailsUnder255 := by
  intro s x hs hmod hp hc hff
  obtain ⟨-, hw⟩ := StateFamily.stateInv_iff.1 hs
  obtain ⟨v, hv, hckA⟩ := ckView_of_wf hw hp hc
  refine (Selects.ckFail hp hc hv (Bool.eq_false_iff.2 fun hok => ?_)).decodeByte_eq
  rw [ckOk, hmod] at hok
  obtain ⟨ha, hb⟩ := lt_of_verify (by decide) hok
  obtain h | rfl := hff
  · rw [hckA, Option.some.injEq] at h
    rw [h] at ha
    exact absurd ha (by decide)
  · exact absurd hb (by decide)

/-- Settles O4: each word is selected in its phase; 0x00 above a lenLo of 0x00 declares length 0. -/
theorem sampleWordsDecode : Obligations.SampleWordsDecode := by
  intro c
  exact ⟨Selects.decodeByte_eq (.ss1Hit rfl), Selects.decodeByte_eq (.ss1Skip rfl (by decide)),
    Selects.decodeByte_eq (.ss2Hit rfl), Selects.decodeByte_eq (.ss2Restart rfl),
    Selects.decodeByte_eq (.ss2Miss rfl (by decide) (by decide)), Selects.decodeByte_eq (.hdrAcc rfl (Nat.succ_pos 2)),
    Selects.decodeByte_eq (.hdrLenZero rfl rfl rfl)⟩

end Sys2Proof.EncodingFamily
end

section
/-! The Checksum Engine (40_checksum_engine.md): the recurrence on values (R90), the closed form that solves it (R94), what
VERIFY accepts (R93, R95), and the replacements of one byte that the checksum cannot see (R96). -/

namespace Sys2Proof.ChecksumFamily

open Sys2Proof.Machine

variable {m : Nat} {bs bs' : List Byte}

/-! ## The recurrence -/

/-- A residue of a modulus of at most 256 fits in a byte, so storing it loses nothing (R90, R92). -/
theorem toNat_ofNat_mod (hm : 0 < m) (hm' : m ≤ 256) (n : Nat) : (BitVec.ofNat 8 (n % m)).toNat = n % m := by
  rw [BitVec.toNat_ofNat]
  exact Nat.mod_eq_of_lt ((Nat.mod_lt n hm).trans_le hm')

theorem checksum_nil (m : Nat) : checksum m [] = (0, 0) := rfl

theorem checksum_concat (m : Nat) (bs : List Byte) (x : Byte) :
    checksum m (bs ++ [x]) = ckStep m (checksum m bs) x := List.foldl_concat ..

theorem checksum_concat_fst (hm : 0 < m) (hm' : m ≤ 256) (bs : List Byte) (x : Byte) :
    (checksum m (bs ++ [x])).1.toNat = ((checksum m bs).1.toNat + x.toNat) % m := by
  rw [checksum_concat]
  exact toNat_ofNat_mod hm hm' _

/-- `b` takes the new `a`. -/
theorem checksum_concat_snd (hm : 0 < m) (hm' : m ≤ 256) (bs : List Byte) (x : Byte) :
    (checksum m (bs ++ [x])).2.toNat = ((checksum m bs).2.toNat + (checksum m (bs ++ [x])).1.toNat) % m := by
  rw [checksum_concat_fst hm hm', checksum_concat]
  exact toNat_ofNat_mod hm hm' _

/-- A byte 0x00 leaves the initial pair as it is. -/
theorem ckStep_zero (m : Nat) : ckStep m (0, 0) 0x00 = (0, 0) := by simp [ckStep]

theorem checksum_replicate_zero (m n : Nat) : checksum m (List.replicate n 0x00) = (0, 0) := by
  induction n with
  | zero => rfl
  | succ n ih => rw [List.replicate_succ', checksum_concat, ih, ckStep_zero]

/-! ## The closed form -/

/-- The sum of the bytes: R94's `a` before the modulus. -/
def byteSum (bs : List Byte) : Nat := (bs.map BitVec.toNat).sum

/-- Byte k of n taken n - k times: R94's `b` before the modulus. -/
def weightedSum (bs : List Byte) : Nat := (bs.zipIdx.map fun xk => (bs.length - xk.2) * xk.1.toNat).sum

theorem byteSum_append (bs cs : List Byte) : byteSum (bs ++ cs) = byteSum bs + byteSum cs := by
  rw [byteSum, List.map_append, List.sum_append, byteSum, byteSum]

theorem byteSum_singleton (x : Byte) : byteSum [x] = x.toNat := rfl

theorem byteSum_perm (h : bs.Perm bs') : byteSum bs = byteSum bs' := (h.map _).sum_eq

theorem byteSum_eq_sum_zipIdx (bs : List Byte) : byteSum bs = (bs.zipIdx.map fun xk => xk.1.toNat).sum := by
  rw [byteSum]
  conv_lhs => rw [← List.zipIdx_map_fst 0 bs, List.map_map]
  rfl

/-- One more byte raises every weight by one, its own from nothing. -/
theorem weightedSum_concat (bs : List Byte) (x : Byte) :
    weightedSum (bs ++ [x]) = weightedSum bs + byteSum (bs ++ [x]) := by
  have hweight : ∀ xk ∈ bs.zipIdx, ((bs ++ [x]).length - xk.2) * xk.1.toNat =
      (bs.length - xk.2) * xk.1.toNat + xk.1.toNat := by
    intro xk hxk
    have hk : xk.2 < bs.length := List.snd_lt_of_mem_zipIdx hxk
    rw [List.length_append, List.length_singleton, Nat.sub_add_comm hk.le, Nat.succ_mul]
  calc weightedSum (bs ++ [x])
      = (bs.zipIdx.map fun xk => (bs.length - xk.2) * xk.1.toNat + xk.1.toNat).sum + x.toNat := by
        rw [weightedSum, List.zipIdx_append, List.map_append, List.sum_append, List.map_congr_left hweight]
        simp
    _ = weightedSum bs + byteSum (bs ++ [x]) := by
        rw [List.sum_map_add, ← byteSum_eq_sum_zipIdx, ← weightedSum, byteSum_append, byteSum_singleton, Nat.add_assoc]

theorem checksum_fst (hm : 0 < m) (hm' : m ≤ 256) (bs : List Byte) :
    (checksum m bs).1.toNat = byteSum bs % m := by
  induction bs using List.reverseRecOn with
  | nil => exact (Nat.zero_mod m).symm
  | append_singleton bs x ih =>
    rw [checksum_concat_fst hm hm', ih, Nat.mod_add_mod, byteSum_append, byteSum_singleton]

theorem checksum_snd (hm : 0 < m) (hm' : m ≤ 256) (bs : List Byte) :
    (checksum m bs).2.toNat = weightedSum bs % m := by
  induction bs using List.reverseRecOn with
  | nil => exact (Nat.zero_mod m).symm
  | append_singleton bs x ih =>
    rw [checksum_concat_snd hm hm', ih, checksum_fst hm hm', ← Nat.add_mod, weightedSum_concat]

/-- `a` tells two sequences apart exactly where their sums differ mod M. -/
theorem checksum_fst_eq_iff (hm : 0 < m) (hm' : m ≤ 256) :
    (checksum m bs).1 = (checksum m bs').1 ↔ byteSum bs ≡ byteSum bs' [MOD m] := by
  rw [← BitVec.toNat_inj, checksum_fst hm hm', checksum_fst hm hm', Nat.ModEq]

/-- The two orders of 0x00, 0x01 weigh 1 and 2, which no modulus above 1 identifies. -/
theorem checksum_snd_order (hm : 2 ≤ m) (hm' : m ≤ 256) :
    (checksum m [0x00, 0x01]).2 ≠ (checksum m [0x01, 0x00]).2 := by
  intro h
  rw [← BitVec.toNat_inj, checksum_snd (by omega) hm', checksum_snd (by omega) hm'] at h
  have hdvd : m ∣ 2 - 1 := (Nat.modEq_iff_dvd' one_le_two).1 h
  exact absurd (Nat.le_of_dvd Nat.one_pos hdvd) (by omega)

/-! ## VERIFY -/

theorem verify_eq_decide (m : Nat) (bs : List Byte) (a b : Byte) :
    verify m bs a b = decide (checksum m bs = (a, b)) := by
  rw [Bool.eq_iff_iff, decide_eq_true_iff, Prod.ext_iff, verify, Bool.and_eq_true, beq_iff_eq, beq_iff_eq]

theorem verify_iff {a b : Byte} : verify m bs a b = true ↔ checksum m bs = (a, b) := by
  rw [verify_eq_decide, decide_eq_true_iff]

/-! ## Replacing one byte -/

/-- 0xFF is 0 mod 255, so no accumulator tells it from 0x00. -/
theorem ckStep_zero_eq_ff (acc : Byte × Byte) : ckStep 255 acc 0x00 = ckStep 255 acc 0xFF := by
  have ha : (acc.1.toNat + (0x00 : Byte).toNat) % 255 = (acc.1.toNat + (0xFF : Byte).toNat) % 255 :=
    (Nat.add_mod_right acc.1.toNat 255).symm
  simp only [ckStep, ha]

theorem checksum_zero_eq_ff (p q : List Byte) : checksum 255 (p ++ [0x00] ++ q) = checksum 255 (p ++ [0xFF] ++ q) := by
  have hp : checksum 255 (p ++ [0x00]) = checksum 255 (p ++ [0xFF]) := by
    rw [checksum_concat, checksum_concat, ckStep_zero_eq_ff]
  unfold checksum at hp ⊢
  rw [List.foldl_append, hp, ← List.foldl_append]

/-- In every context `a` compares two bytes by their residues. -/
theorem checksum_fst_replace_iff (hm : 0 < m) (hm' : m ≤ 256) (p q : List Byte) (v w : Byte) :
    (checksum m (p ++ [v] ++ q)).1 = (checksum m (p ++ [w] ++ q)).1 ↔ v.toNat ≡ w.toNat [MOD m] := by
  simp only [checksum_fst_eq_iff hm hm', byteSum_append, byteSum_singleton]
  exact ⟨fun h => (h.add_right_cancel' _).add_left_cancel' _, fun h => (h.add_left _).add_right _⟩

/-- 0x00 and 0xFF are the only two bytes with one residue mod 255. -/
theorem byte_modEq_255 {v w : Byte} (h : v.toNat ≡ w.toNat [MOD 255]) :
    v = w ∨ (v = 0x00 ∧ w = 0xFF) ∨ (v = 0xFF ∧ w = 0x00) := by
  rw [Nat.ModEq] at h
  bv_omega

theorem byte_modEq_256 {v w : Byte} (h : v.toNat ≡ w.toNat [MOD 256]) : v = w :=
  BitVec.eq_of_toNat_eq (h.eq_of_lt_of_lt v.isLt w.isLt)

/-! ## The obligations -/

/-- Settles O53: the recurrence clause by clause; the order of the bytes is told by the closed form. -/
theorem checksumRecurrence : Obligations.ChecksumRecurrence := by
  intro m h2 h256
  have hm : 0 < m := by omega
  refine ⟨checksum_nil m, checksum_replicate_zero m, fun s s' hperm => ?_, checksum_snd_order h2 h256, fun s x =>
    ⟨checksum_concat_fst hm h256 s x, checksum_concat_snd hm h256 s x, EncodingFamily.checksum_lt hm s⟩⟩
  rw [checksum_fst_eq_iff hm h256, byteSum_perm hperm]

/-- Settles O54, by induction on the sequence from its last byte (`checksum_fst`, `checksum_snd`). -/
theorem checksumClosedForm : Obligations.ChecksumClosedForm := by
  intro m bs h2 h256
  have hm : 0 < m := by omega
  exact ⟨checksum_fst hm h256 bs, checksum_snd hm h256 bs⟩

/-- Settles O55: VERIFY decides equality with the computed pair, and that pair lies below the modulus. -/
theorem verifyAcceptsExactlyTheChecksum : Obligations.VerifyAcceptsExactlyTheChecksum := by
  intro m bs a b h2 _
  refine ⟨verify_iff.2 rfl, verify_iff.2 (checksum_nil m), fun hv => Prod.ext_iff.1 (verify_iff.1 hv), fun hge => ?_⟩
  rw [Bool.eq_false_iff]
  intro hv
  obtain ⟨ha, hb⟩ := EncodingFamily.lt_of_verify (by omega) hv
  omega

/-- Settles O56: `a` compares the two bytes mod M, which under 255 identifies 0x00 with 0xFF and under 256 no two bytes. -/
theorem singleByteAliasing : Obligations.SingleByteAliasing := by
  intro p q v w hne
  refine ⟨checksum_zero_eq_ff p q, fun h0F hF0 h => ?_, fun h => ?_⟩
  · have hmod := (checksum_fst_replace_iff (by decide) (by decide) p q v w).1 h
    obtain heq | h | h := byte_modEq_255 hmod
    · exact hne heq
    · exact h0F h
    · exact hF0 h
  · exact hne (byte_modEq_256 ((checksum_fst_replace_iff (by decide) (by decide) p q v w).1 h))

/-- Settles O23: each function ends in `delivering` its value, which for VERIFY is a comparison of pairs and for LE16 the
sum of the two bytes at their places. -/
theorem functionsDeliverTheirValue : Obligations.FunctionsDeliverTheirValue := by
  intro s bs a b
  refine ⟨EncodingFamily.delivers_of_next (execChecksum_next.2 rfl), ?_, ?_⟩
  · rw [← verify_eq_decide]
    exact EncodingFamily.delivers_of_next (execVerify_next.2 rfl)
  · rw [← MemoryFamily.le16_eq_add]
    exact EncodingFamily.delivers_of_next (execLe16_next.2 rfl)

end Sys2Proof.ChecksumFamily
end

section
/-! Sync search (41_sync_search.md): a byte step as the operation the byte selects, runs that present nothing, and the
five operations of the two seek phases (R100 to R104), with the frame of the operations that store nothing (R101, R141). -/

namespace Sys2Proof.SyncSearchFamily

open Sys2Proof.Machine Sys2Proof.StateFamily Sys2Proof.EncodingFamily

section
variable {s t : State} {x : Byte} {bs : List Byte} {i : Instr} {sy sy' : Sync} {o : Host.Outcome State Fault Refusal}

/-! ## One byte -/

theorem decodeEvent_byte (s : State) (x : Byte) :
    decodeEvent s (.byte x) = if s.sync.wf s.cfg then decodeByte s x else .error .brokenInvariant := rfl

/-- Under the invariant a byte step is the operation the byte selects (R68, R140). -/
theorem stepEvent_of_selects (h : Selects s x i) (hs : StateInv s) : stepEvent (.byte x) s = exec i s := by
  obtain ⟨hc, hw⟩ := stateInv_iff.1 hs
  simp only [stepEvent, if_pos hc, decodeEvent_byte, if_pos hw, h.decodeByte_eq]

/-- Only a state that meets R25 under a well-formed `Cfg` takes a byte (R183, log 9). -/
theorem stateInv_of_stepEvent_byte (h : stepEvent (.byte x) s = .next t) : StateInv s := by
  obtain ⟨hc, i, hd, -⟩ := stepEvent_next.1 h
  rw [decodeEvent_byte] at hd
  split at hd
  · next hw => exact stateInv_iff.2 ⟨hc, hw⟩
  · cases hd

/-! ## Runs that present nothing -/

/-- The bytes `bs` take `s` to the elements `sy` under the same `Cfg`, and no step presents a record or the strobe. -/
def RunsSilently (s : State) (bs : List Byte) (sy : Sync) : Prop :=
  ∃ t os, feedBytes s bs = .next (t, os) ∧ t.sync = sy ∧ t.cfg = s.cfg ∧ ∀ o ∈ os, o.silent = true

theorem silent_iff {o : Outputs} : o.silent = true ↔ o.emission = none ∧ o.diagOversize = false := by
  rw [Outputs.silent, Bool.and_eq_true, Option.isNone_iff_eq_none, Bool.not_eq_true']

theorem emissions_of_silent {os : List Outputs} (h : ∀ o ∈ os, o.silent = true) : emissions os = [] :=
  List.filterMap_eq_nil_iff.2 fun o ho => (silent_iff.1 (h o ho)).1

theorem strobesFrom_of_silent {os : List Outputs} (h : ∀ o ∈ os, o.silent = true) (k : Nat) : strobesFrom k os = [] := by
  induction os generalizing k with
  | nil => rfl
  | cons o os ih =>
    obtain ⟨ho, hos⟩ := List.forall_mem_cons.1 h
    obtain ⟨-, hd⟩ := silent_iff.1 ho
    rw [strobesFrom, hd]
    exact ih hos (k + 1)

/-- What a silent run says of its outputs as R142 lists them. -/
theorem RunsSilently.outputs (h : RunsSilently s bs sy) :
    ∃ t os, feedBytes s bs = .next (t, os) ∧ t.sync = sy ∧ emissions os = [] ∧ strobes os = [] := by
  obtain ⟨t, os, hrun, ht, -, hos⟩ := h
  exact ⟨t, os, hrun, ht, emissions_of_silent hos, strobesFrom_of_silent hos 0⟩

theorem RunsSilently.nil (s : State) : RunsSilently s [] s.sync :=
  ⟨s, [], runsTo_nil.2 ⟨rfl, rfl⟩, rfl, rfl, List.forall_mem_nil _⟩

/-- A silent step followed by a silent run from the elements it leaves. -/
theorem RunsSilently.cons (h : Completes (stepEvent (.byte x) s) s sy none false)
    (hr : ∀ u : State, u.cfg = s.cfg → u.sync = sy → RunsSilently u bs sy') : RunsSilently s (x :: bs) sy' := by
  obtain ⟨u, hstep, hus, huc, -, hem, hdiag⟩ := h
  obtain ⟨t, os, hrun, ht, htc, hos⟩ := hr u huc hus
  exact ⟨t, u.out :: os, runsTo_cons.2 ⟨u, os, hstep, hrun, rfl⟩, ht, htc.trans huc,
    List.forall_mem_cons.2 ⟨silent_iff.2 ⟨hem, hdiag⟩, hos⟩⟩

/-! ## The five operations -/

theorem completes_of_quietly (h : o = .next (quietly s sy)) : Completes o s sy none false :=
  ⟨_, h, quietly_sync s sy, quietly_cfg s sy, quietly_input s sy, rfl, rfl⟩

/-- A condition that is only noted is not surfaced (R161, R162). -/
theorem completes_of_noting {c : Condition} (h : o = .next (noting c (quietly s sy))) : Completes o s sy none false :=
  ⟨_, h, noting_sync _ c, noting_cfg _ c, noting_input _ c, noting_emission _ c, noting_diagOversize _ c⟩

theorem ss1Hit_completes (hp : s.sync.phase = .seekSync1) : Completes (exec .ss1Hit s) s Sync.syncStarted none false :=
  completes_of_quietly (execSs1Hit_next.2 ⟨hp, rfl⟩)

theorem ss1Skip_completes (hp : s.sync.phase = .seekSync1) (hx : x ≠ sync1) :
    Completes (exec (.ss1Skip x) s) s s.sync none false :=
  completes_of_noting (execSs1Skip_next.2 ⟨⟨hp, hx⟩, rfl⟩)

theorem ss2Restart_completes (hp : s.sync.phase = .seekSync2) :
    Completes (exec .ss2Restart s) s Sync.syncStarted none false :=
  completes_of_noting (execSs2Restart_next.2 ⟨hp, rfl⟩)

theorem ss2Miss_completes (hp : s.sync.phase = .seekSync2) (h2 : x ≠ sync2) (h1 : x ≠ sync1) :
    Completes (exec (.ss2Miss x) s) s Sync.reset none false :=
  ⟨_, execSs2Miss_next.2 ⟨⟨⟨hp, h2⟩, h1⟩, rfl⟩, raise_sync s _ _, raise_cfg s _ _, raise_input s _ _,
    raise_emission s _ _, strobe_syncLost⟩

/-- The state both sync bytes leave: the header is still to come (R102). -/
def headerStarted : Sync :=
  { phase := .readHeader, buf := Memory.ofBytes [sync1, sync2], expectedLen := 0, count := 0 }

/-- The second sync byte always fits: MAX_FRAME is at least 8 (R6). -/
theorem append_sync2 (c : Cfg) :
    Memory.append c.maxFrame (Memory.ofBytes [sync1]) sync2 = some (Memory.ofBytes [sync1, sync2]) := by
  have hfits : [sync1].length < c.maxFrame := Nat.lt_add_left c.maxPayload (by decide)
  rw [Memory.append_ofBytes, if_pos hfits]
  rfl

theorem ss2Hit_completes (hs : s.sync = Sync.syncStarted) : Completes (exec .ss2Hit s) s headerStarted none false := by
  have hbuf : Memory.append s.cfg.maxFrame s.sync.buf sync2 = some headerStarted.buf := by
    rw [hs]
    exact append_sync2 s.cfg
  have hnext := execSs2Hit_next.2 ⟨congrArg Sync.phase hs, _, hbuf, rfl⟩
  rw [hs] at hnext
  exact completes_of_quietly hnext

/-! ## Runs in the seek phases -/

/-- Bytes other than SYNC1 leave RESET_STATE as it is, however many (R101). -/
theorem runsSilently_of_no_sync1 (hc : s.cfg.wf = true) (hs : s.sync = Sync.reset) (hbs : ∀ x ∈ bs, x ≠ sync1) :
    RunsSilently s bs Sync.reset := by
  induction bs generalizing s with
  | nil => exact hs ▸ RunsSilently.nil s
  | cons x bs ih =>
    obtain ⟨hx, hrest⟩ := List.forall_mem_cons.1 hbs
    have hp : s.sync.phase = .seekSync1 := congrArg Sync.phase hs
    have hinv : StateInv s := stateInv_iff.2 ⟨hc, hs ▸ reset_wf s.cfg⟩
    have hstep := ss1Skip_completes hp hx
    rw [← stepEvent_of_selects (.ss1Skip hp hx) hinv, hs] at hstep
    exact .cons hstep fun u huc hus => ih (huc ▸ hc) hus hrest

/-- After a first sync byte any number of further ones is absorbed, and SYNC2 starts the header (R102, R103). -/
theorem runsSilently_sync1_run (hc : s.cfg.wf = true) (hs : s.sync = Sync.syncStarted) (n : Nat) :
    RunsSilently s (List.replicate n sync1 ++ [sync2]) headerStarted := by
  induction n generalizing s with
  | zero =>
    have hinv : StateInv s := stateInv_iff.2 ⟨hc, hs ▸ syncStarted_wf s.cfg⟩
    have hstep := ss2Hit_completes hs
    rw [← stepEvent_of_selects (.ss2Hit (congrArg Sync.phase hs)) hinv] at hstep
    exact .cons hstep fun u _ hus => hus ▸ RunsSilently.nil u
  | succ n ih =>
    have hp : s.sync.phase = .seekSync2 := congrArg Sync.phase hs
    have hinv : StateInv s := stateInv_iff.2 ⟨hc, hs ▸ syncStarted_wf s.cfg⟩
    have hstep := ss2Restart_completes hp
    rw [← stepEvent_of_selects (.ss2Restart hp) hinv] at hstep
    exact .cons hstep fun u huc hus => ih (huc ▸ hc) hus

/-- From RESET_STATE the first SYNC1 of such a run is the hit (R100). -/
theorem runsSilently_sync_pair (hc : s.cfg.wf = true) (hs : s.sync = Sync.reset) (n : Nat) :
    RunsSilently s (List.replicate (n + 1) sync1 ++ [sync2]) headerStarted := by
  have hp : s.sync.phase = .seekSync1 := congrArg Sync.phase hs
  have hinv : StateInv s := stateInv_iff.2 ⟨hc, hs ▸ reset_wf s.cfg⟩
  have hstep := ss1Hit_completes hp
  rw [← stepEvent_of_selects (.ss1Hit hp) hinv] at hstep
  exact .cons hstep fun u huc hus => runsSilently_sync1_run (huc ▸ hc) hus n

/-! ## The operations that store nothing -/

/-- SS1_SKIP notes its condition, IDLE ends quietly, and a function delivers its value: nothing else happens. -/
theorem nonStoring_next
    (hi : (∃ x, i = .ss1Skip x) ∨ i = .idle ∨ (∃ bs, i = .checksum bs) ∨ (∃ bs a b, i = .verify bs a b) ∨
      (∃ lo hi, i = .le16 lo hi) ∨ (∃ p o w sg, i = .field p o w sg) ∨ ∃ c d p, i = .frame c d p)
    (h : exec i s = .next t) :
    t = noting .syncLost (quietly s s.sync) ∨ t = quietly s s.sync ∨ ∃ v, t = delivering v s := by
  obtain ⟨x, rfl⟩ | rfl | ⟨bs, rfl⟩ | ⟨bs, a, b, rfl⟩ | ⟨lo, hi, rfl⟩ | ⟨p, o, w, sg, rfl⟩ | ⟨c, d, p, rfl⟩ := hi
  · obtain ⟨-, ht⟩ := execSs1Skip_next.1 h; exact .inl ht
  · exact .inr (.inl (execIdle_next.1 h))
  · exact .inr (.inr ⟨_, execChecksum_next.1 h⟩)
  · exact .inr (.inr ⟨_, execVerify_next.1 h⟩)
  · exact .inr (.inr ⟨_, execLe16_next.1 h⟩)
  · obtain ⟨v, -, ht⟩ := execField_next.1 h; exact .inr (.inr ⟨.int v, ht⟩)
  · obtain ⟨-, ht⟩ := execFrame_next.1 h; exact .inr (.inr ⟨_, ht⟩)

end

/-! ## The obligations -/

/-- Settles O6: a byte other than SYNC1 runs SS1_SKIP, which keeps the phase. -/
theorem ss1HitStoresFirstSyncByte : Obligations.Ss1HitStoresFirstSyncByte := by
  refine ⟨fun s => ss1Hit_completes, fun s t x hp h hne => ?_⟩
  have hinv := stateInv_of_stepEvent_byte h
  by_cases hx : x = sync1
  · subst hx
    exact ⟨rfl, stepEvent_of_selects (.ss1Hit hp) hinv⟩
  · rw [stepEvent_of_selects (.ss1Skip hp hx) hinv] at h
    obtain ⟨-, rfl⟩ := execSs1Skip_next.1 h
    exact absurd hp hne

/-- Settles O7, the run by induction on the stream. -/
theorem ss1SkipLeavesNoTrace : Obligations.Ss1SkipLeavesNoTrace :=
  ⟨fun _ _ => ss1Skip_completes, fun _ _ hc hs hbs => (runsSilently_of_no_sync1 hc hs hbs).outputs⟩

/-- Settles O8: R25's line for SeekSync2 is one state, and its buffer has room for SYNC2. -/
theorem ss2HitEntersReadHeader : Obligations.Ss2HitEntersReadHeader :=
  fun _ hw hp => ss2Hit_completes ((Sync.wf_seekSync2 hp).1 hw)

/-- Settles O9: under R25 SS2_RESTART gives back the state it started from, so a run of SYNC1 is absorbed by induction on
its length. -/
theorem ss2RestartKeepsNewSyncByte : Obligations.Ss2RestartKeepsNewSyncByte := by
  refine ⟨fun s hp => ⟨ss2Restart_completes hp, (Sync.wf_seekSync2 hp).1⟩, fun s n hc hs => ?_⟩
  obtain ⟨t, os, hrun, ht, hem, hst⟩ := (runsSilently_sync_pair hc hs n).outputs
  exact ⟨t, os, hrun, hem, hst, ht⟩

/-- Settles O10: the miss is the `ResetToSeek` of `SyncLost`, which raises no strobe and emits nothing. -/
theorem ss2MissResetsSilently : Obligations.Ss2MissResetsSilently := fun _ _ => ss2Miss_completes

/-- Settles O28: none of the three ends a non-storing operation can have touches an element. -/
theorem nonStoringOperationsKeepTheElements : Obligations.NonStoringOperationsKeepTheElements := by
  intro s t i hi h
  have hkeeps : t.sync = s.sync ∧ t.out.emission = none ∧ t.out.diagOversize = false := by
    obtain rfl | rfl | ⟨v, rfl⟩ := nonStoring_next hi h
    · exact ⟨noting_sync _ _, noting_emission _ _, noting_diagOversize _ _⟩
    · exact ⟨quietly_sync _ _, quiet_emission, quiet_diagOversize⟩
    · exact ⟨delivering_sync _ _, delivering_emission _ _, delivering_diagOversize _ _⟩
  obtain ⟨hsync, hem, hdiag⟩ := hkeeps
  exact ⟨hsync, fun a => by rw [hsync], exec_keeps_cfg h, exec_keeps_input h, hem, hdiag⟩

end Sys2Proof.SyncSearchFamily
end

section
/-! Header and payload (42_header_payload.md): the operations of the header and the payload under R25 (R110 to R116), the
elements at each point of a frame attempt, and the attempt as a run of its declared length (R117, R133). -/

namespace Sys2Proof.HeaderPayloadFamily

open Sys2Proof.Machine Sys2Proof.StateFamily Sys2Proof.EncodingFamily Sys2Proof.SyncSearchFamily

section
variable {c : Cfg} {s t u : State} {sy sy' : Sync} {cls id lo hi ckA x : Byte} {bs cs p : List Byte} {em : Option Emission}
  {diag : Bool}

/-! ## Storing one byte under R25 -/

/-- Under R25 the buffer always has room for one more byte (R27). -/
theorem length_lt_maxFrame (hw : sy.wf c = true) : sy.buf.length < c.maxFrame := by
  have hmax : c.maxFrame = c.maxPayload + 8 := rfl
  rw [← Memory.length_bytes]
  cases hp : sy.phase with
  | seekSync1 => rw [(Sync.wf_seekSync1 hp).1 hw]; exact Nat.succ_pos _
  | seekSync2 => rw [(Sync.wf_seekSync2 hp).1 hw]; change 1 < c.maxFrame; omega
  | readHeader => obtain ⟨-, -, hl, -, hle⟩ := (Sync.wf_readHeader hp).1 hw; omega
  | readPayload => obtain ⟨-, -, hl, -, -, hle, hlt⟩ := (Sync.wf_readPayload hp).1 hw; omega
  | readChecksum => obtain ⟨-, -, hl, -, hle, hcnt⟩ := (Sync.wf_readChecksum hp).1 hw; omega

theorem append_of_wf (hw : sy.wf c = true) (x : Byte) :
    Memory.append c.maxFrame sy.buf x = some (Memory.ofBytes (Memory.bytes sy.buf ++ [x])) :=
  Memory.append_of_lt x (Sync.wf_mem hw) (length_lt_maxFrame hw)

/-- The byte last stored stands at the old fill index. -/
theorem read_stored {n : Nat} (h : bs.length = n) : Memory.read (Memory.ofBytes (bs ++ [x])) n = some x := by
  rw [Memory.read_ofBytes, ← h, List.getElem?_concat_length]

theorem hdrAcc_completes (hw : s.sync.wf s.cfg = true) (hp : s.sync.phase = .readHeader) (hc : s.sync.count.toNat < 3) :
    Completes (exec (.hdrAcc x) s) s
      { phase := .readHeader, buf := Memory.ofBytes (Memory.bytes s.sync.buf ++ [x]), expectedLen := s.sync.expectedLen,
        count := s.sync.count + 1 } none false :=
  completes_of_quietly (execHdrAcc_next.2 ⟨⟨hp, hc⟩, _, append_of_wf hw x, by rw [← hp]⟩)

theorem payAcc_completes (hw : s.sync.wf s.cfg = true) (hp : s.sync.phase = .readPayload)
    (hc : s.sync.count.toNat + 1 < s.sync.expectedLen.toNat) :
    Completes (exec (.payAcc x) s) s
      { phase := .readPayload, buf := Memory.ofBytes (Memory.bytes s.sync.buf ++ [x]), expectedLen := s.sync.expectedLen,
        count := s.sync.count + 1 } none false :=
  completes_of_quietly (execPayAcc_next.2 ⟨⟨hp, hc⟩, _, append_of_wf hw x, by rw [← hp]⟩)

theorem payLast_completes (hw : s.sync.wf s.cfg = true) (hp : s.sync.phase = .readPayload)
    (hc : s.sync.count.toNat + 1 = s.sync.expectedLen.toNat) :
    Completes (exec (.payLast x) s) s
      { phase := .readChecksum, buf := Memory.ofBytes (Memory.bytes s.sync.buf ++ [x]), expectedLen := s.sync.expectedLen,
        count := 0 } none false :=
  completes_of_quietly (execPayLast_next.2 ⟨⟨hp, hc⟩, _, append_of_wf hw x, rfl⟩)

theorem ckFirst_completes (hw : s.sync.wf s.cfg = true) (hp : s.sync.phase = .readChecksum) (hc : s.sync.count = 0) :
    Completes (exec (.ckFirst x) s) s
      { phase := .readChecksum, buf := Memory.ofBytes (Memory.bytes s.sync.buf ++ [x]), expectedLen := s.sync.expectedLen,
        count := 1 } none false :=
  completes_of_quietly (execCkFirst_next.2 ⟨⟨hp, hc⟩, _, append_of_wf hw x, by rw [← hp]⟩)

/-! ## The elements at each point of an attempt -/

/-- The elements once the header bytes `bs` have come after the sync pair. -/
def headerAfter (bs : List Byte) : Sync :=
  { phase := .readHeader, buf := Memory.ofBytes ([sync1, sync2] ++ bs), expectedLen := 0,
    count := BitVec.ofNat 16 bs.length }

/-- The elements once the header and the bytes `bs` after it have come: payload up to the declared length, checksum
bytes from there on. -/
def bodyAfter (cls id lo hi : Byte) (bs : List Byte) : Sync :=
  { phase := if bs.length < le16 lo hi then .readPayload else .readChecksum,
    buf := Memory.ofBytes ([sync1, sync2, cls, id, lo, hi] ++ bs),
    expectedLen := hi ++ lo,
    count := BitVec.ofNat 16 (if bs.length < le16 lo hi then bs.length else bs.length - le16 lo hi) }

theorem bodyAfter_of_lt (h : bs.length < le16 lo hi) : bodyAfter cls id lo hi bs =
    { phase := .readPayload, buf := Memory.ofBytes ([sync1, sync2, cls, id, lo, hi] ++ bs), expectedLen := hi ++ lo,
      count := BitVec.ofNat 16 bs.length } := by
  simp only [bodyAfter, if_pos h]

theorem bodyAfter_of_le (h : le16 lo hi ≤ bs.length) : bodyAfter cls id lo hi bs =
    { phase := .readChecksum, buf := Memory.ofBytes ([sync1, sync2, cls, id, lo, hi] ++ bs), expectedLen := hi ++ lo,
      count := BitVec.ofNat 16 (bs.length - le16 lo hi) } := by
  simp only [bodyAfter, if_neg (Nat.not_lt.2 h)]

theorem headerAfter_wf (h : bs.length ≤ 3) : (headerAfter bs).wf c = true := by
  have hcnt : (headerAfter bs).count.toNat = bs.length := Nat.mod_eq_of_lt (by omega)
  refine (Sync.wf_readHeader rfl).2 ⟨Memory.wf_ofBytes _, ?_, ?_, rfl, by omega⟩
  · rw [headerAfter, Memory.bytes_ofBytes]; rfl
  · rw [hcnt, headerAfter, Memory.bytes_ofBytes, List.length_append]; rfl

theorem bodyAfter_wf (hmax : le16 lo hi ≤ c.maxPayload) (h : bs.length ≤ le16 lo hi + 1) :
    (bodyAfter cls id lo hi bs).wf c = true := by
  have hlt := le16_lt lo hi
  have hbytes : Memory.bytes (bodyAfter cls id lo hi bs).buf = [sync1, sync2, cls, id, lo, hi] ++ bs :=
    Memory.bytes_ofBytes _
  have hcan : Memory.wf (bodyAfter cls id lo hi bs).buf = true := Memory.wf_ofBytes _
  have hlen : (Memory.bytes (bodyAfter cls id lo hi bs).buf).length = 6 + bs.length := by
    rw [hbytes, List.length_append]; rfl
  have hexp : (bodyAfter cls id lo hi bs).expectedLen.toNat = le16 lo hi := append_toNat_eq_le16 lo hi
  have hdecl : declaredLen (Memory.bytes (bodyAfter cls id lo hi bs).buf) = some (le16 lo hi) := by rw [hbytes]; rfl
  have hsync : (Memory.bytes (bodyAfter cls id lo hi bs).buf).take 2 = [sync1, sync2] := by rw [hbytes]; rfl
  obtain hb | hb := Nat.lt_or_ge bs.length (le16 lo hi)
  · have hcnt : (bodyAfter cls id lo hi bs).count.toNat = bs.length := by
      rw [bodyAfter_of_lt hb]; exact Nat.mod_eq_of_lt (by omega)
    exact (Sync.wf_readPayload (by rw [bodyAfter_of_lt hb])).2
      ⟨hcan, hsync, by omega, by rw [hdecl, hexp], by omega, by omega, by omega⟩
  · have hcnt : (bodyAfter cls id lo hi bs).count.toNat = bs.length - le16 lo hi := by
      rw [bodyAfter_of_le hb]; exact Nat.mod_eq_of_lt (by omega)
    exact (Sync.wf_readChecksum (by rw [bodyAfter_of_le hb])).2
      ⟨hcan, hsync, by omega, by rw [hdecl, hexp], by omega, by omega⟩

theorem stateInv_of_headerAfter (hc : s.cfg.wf = true) (hs : s.sync = headerAfter bs) (h : bs.length ≤ 3) : StateInv s :=
  stateInv_iff.2 ⟨hc, hs ▸ headerAfter_wf h⟩

theorem stateInv_of_bodyAfter (hc : s.cfg.wf = true) (hs : s.sync = bodyAfter cls id lo hi bs)
    (hmax : le16 lo hi ≤ s.cfg.maxPayload) (h : bs.length ≤ le16 lo hi + 1) : StateInv s :=
  stateInv_iff.2 ⟨hc, hs ▸ bodyAfter_wf hmax h⟩

/-! ## The fourth header byte -/

/-- With three header bytes stored, the fourth assembles the length above lenLo (R111). -/
theorem lenNew_of_headerAfter (hs : s.sync = headerAfter [cls, id, lo]) (x : Byte) :
    lenNew s.sync.buf x = some (le16 lo x) := by
  rw [hs]; rfl

theorem append_of_headerAfter (hs : s.sync = headerAfter [cls, id, lo]) (x : Byte) :
    Memory.append s.cfg.maxFrame s.sync.buf x = some (Memory.ofBytes [sync1, sync2, cls, id, lo, x]) := by
  have hw : s.sync.wf s.cfg = true := hs ▸ headerAfter_wf (Nat.le_refl 3)
  rw [append_of_wf hw, hs]
  rfl

theorem phase_count_of_headerAfter (hs : s.sync = headerAfter [cls, id, lo]) :
    s.sync.phase = .readHeader ∧ s.sync.count.toNat = 3 := by
  rw [hs]; exact ⟨rfl, rfl⟩

theorem hdrLen_completes (hs : s.sync = headerAfter [cls, id, lo]) (hpos : 1 ≤ le16 lo x)
    (hmax : le16 lo x ≤ s.cfg.maxPayload) :
    Completes (exec (.hdrLen x) s) s (bodyAfter cls id lo x []) none false := by
  have hnext := execHdrLen_next.2 ⟨phase_count_of_headerAfter hs, _, lenNew_of_headerAfter hs x, ⟨hmax, hpos⟩, _,
    append_of_headerAfter hs x, rfl⟩
  rw [ofNat_le16] at hnext
  rw [bodyAfter_of_lt (bs := []) hpos]
  exact completes_of_quietly hnext

theorem hdrLenZero_completes (hs : s.sync = headerAfter [cls, id, 0x00]) :
    Completes (exec .hdrLenZero s) s (bodyAfter cls id 0x00 0x00 []) none false :=
  completes_of_quietly (execHdrLenZero_next.2
    ⟨phase_count_of_headerAfter hs, lenNew_of_headerAfter hs 0x00, _, append_of_headerAfter hs 0x00, rfl⟩)

theorem hdrOversize_completes (hs : s.sync = headerAfter [cls, id, lo]) (hover : s.cfg.maxPayload < le16 lo x) :
    Completes (exec (.hdrOversize x) s) s Sync.reset none true :=
  ⟨_, execHdrOversize_next.2 ⟨phase_count_of_headerAfter hs, _, lenNew_of_headerAfter hs x, hover, cls, id,
      by rw [hs]; rfl, by rw [hs]; rfl, rfl⟩,
    raise_sync s _ _, raise_cfg s _ _, raise_input s _ _, raise_emission s _ _, rfl⟩

/-! ## Byte steps of an attempt -/

/-- Class, id and lenLo are stored whatever their values (R110). -/
theorem header_step (hc : s.cfg.wf = true) (hs : s.sync = headerAfter bs) (h : bs.length < 3) (x : Byte) :
    Completes (stepEvent (.byte x) s) s (headerAfter (bs ++ [x])) none false := by
  have hinv := stateInv_of_headerAfter hc hs (Nat.le_of_lt h)
  obtain ⟨-, hw⟩ := stateInv_iff.1 hinv
  have hp : s.sync.phase = .readHeader := congrArg Sync.phase hs
  have hcnt : s.sync.count.toNat < 3 := by rw [hs]; exact (Nat.mod_le _ _).trans_lt h
  have hstep := hdrAcc_completes (x := x) hw hp hcnt
  rw [← stepEvent_of_selects (.hdrAcc hp hcnt) hinv, hs] at hstep
  simpa [headerAfter, BitVec.ofNat_add] using hstep

/-- The fourth header byte of an accepted length opens the body, which for length 0 is the checksum (R112, R113). -/
theorem length_step (hc : s.cfg.wf = true) (hs : s.sync = headerAfter [cls, id, lo])
    (hmax : le16 lo x ≤ s.cfg.maxPayload) :
    Completes (stepEvent (.byte x) s) s (bodyAfter cls id lo x []) none false := by
  have hinv := stateInv_of_headerAfter hc hs (Nat.le_refl 3)
  obtain ⟨hp, hcnt⟩ := phase_count_of_headerAfter hs
  have hn := lenNew_of_headerAfter hs x
  obtain hzero | hpos := Nat.eq_zero_or_pos (le16 lo x)
  · have hadd := MemoryFamily.le16_eq_add lo x
    obtain rfl : lo = 0x00 := BitVec.eq_of_toNat_eq (by change lo.toNat = 0; omega)
    obtain rfl : x = 0x00 := eq_zero_of_lenNew_eq_zero (hzero ▸ hn)
    rw [stepEvent_of_selects (.hdrLenZero hp hcnt hn) hinv]
    exact hdrLenZero_completes hs
  · rw [stepEvent_of_selects (.hdrLen hp hcnt hn hpos hmax) hinv]
    exact hdrLen_completes hs hpos hmax

theorem oversize_step (hc : s.cfg.wf = true) (hs : s.sync = headerAfter [cls, id, lo])
    (hover : s.cfg.maxPayload < le16 lo x) : Completes (stepEvent (.byte x) s) s Sync.reset none true := by
  obtain ⟨hp, hcnt⟩ := phase_count_of_headerAfter hs
  rw [stepEvent_of_selects (.hdrOversize hp hcnt (lenNew_of_headerAfter hs x) hover)
    (stateInv_of_headerAfter hc hs (Nat.le_refl 3))]
  exact hdrOversize_completes hs hover

/-- Every payload byte and CK_A are stored whatever their values (R115, R116, R120). -/
theorem body_step (hc : s.cfg.wf = true) (hs : s.sync = bodyAfter cls id lo hi bs)
    (hmax : le16 lo hi ≤ s.cfg.maxPayload) (h : bs.length ≤ le16 lo hi) (x : Byte) :
    Completes (stepEvent (.byte x) s) s (bodyAfter cls id lo hi (bs ++ [x])) none false := by
  have hinv := stateInv_of_bodyAfter hc hs hmax (Nat.le_succ_of_le h)
  obtain ⟨-, hw⟩ := stateInv_iff.1 hinv
  have hexp : s.sync.expectedLen.toNat = le16 lo hi := by rw [hs]; exact append_toNat_eq_le16 lo hi
  have hlt := le16_lt lo hi
  have hlen : (bs ++ [x]).length = bs.length + 1 := List.length_append
  obtain hb | hb := Nat.lt_or_eq_of_le h
  · rw [bodyAfter_of_lt hb] at hs
    have hp : s.sync.phase = .readPayload := congrArg Sync.phase hs
    have hcnt : s.sync.count.toNat = bs.length := by rw [hs]; exact Nat.mod_eq_of_lt (by omega)
    obtain hb1 | hb1 := Nat.lt_or_eq_of_le (Nat.succ_le_of_lt hb)
    · have hmore : s.sync.count.toNat + 1 < s.sync.expectedLen.toNat := by omega
      have hstep := payAcc_completes (x := x) hw hp hmore
      rw [← stepEvent_of_selects (.payAcc hp hmore) hinv, hs] at hstep
      rw [bodyAfter_of_lt (by omega)]
      simpa [BitVec.ofNat_add] using hstep
    · have hlast : s.sync.count.toNat + 1 = s.sync.expectedLen.toNat := by omega
      have hstep := payLast_completes (x := x) hw hp hlast
      rw [← stepEvent_of_selects (.payLast hp hlast) hinv, hs] at hstep
      rw [bodyAfter_of_le (by omega), hlen, ← hb1, Nat.sub_self]
      simpa using hstep
  · rw [bodyAfter_of_le (Nat.le_of_eq hb.symm), ← hb, Nat.sub_self] at hs
    have hp : s.sync.phase = .readChecksum := congrArg Sync.phase hs
    have hzero : s.sync.count = 0 := congrArg Sync.count hs
    have hstep := ckFirst_completes (x := x) hw hp hzero
    rw [← stepEvent_of_selects (.ckFirst hp hzero) hinv, hs] at hstep
    rw [bodyAfter_of_le (by omega), hlen, ← hb, Nat.add_sub_cancel_left]
    simpa using hstep

/-! ## The last byte of an attempt -/

/-- The record the CK_B step presents: that of a checksum-valid frame, or the mismatch with the computed and the received
pair (R122, R123, R125). -/
def closingRecord (c : Cfg) (cls id lo hi : Byte) (p : List Byte) (ckA ckB : Byte) : Option Emission :=
  if checksum c.ckMod ([cls, id, lo, hi] ++ p) = (ckA, ckB) then validRecord c cls id p
  else some (.checksumError cls id (checksum c.ckMod ([cls, id, lo, hi] ++ p)) (ckA, ckB))

/-- A layout that fits the payload decodes it (R124, R126). -/
theorem decodeFields_of_usable {l : Layout} (hc : c.wf = true) (h : usableLayout c cls id p.length = some l) :
    ∃ fields, decodeFields l p = some fields := by
  obtain ⟨hl, hfit⟩ := usableLayout_eq_some.1 h
  exact ⟨_, decodeFields_of_fit (Cfg.lookup_fields_wf hc hl) ((minLen_le_iff l p.length).1 hfit)⟩

/-- A well-formed `Cfg` gives every attempt a record. -/
theorem closingRecord_isSome (hc : c.wf = true) (cls id lo hi : Byte) (p : List Byte) (ckA ckB : Byte) :
    (closingRecord c cls id lo hi p ckA ckB).isSome = true := by
  unfold closingRecord validRecord
  split
  · cases hl : usableLayout c cls id p.length with
    | none => rfl
    | some l =>
      obtain ⟨fields, hf⟩ := decodeFields_of_usable hc hl
      simp only [hf, Option.map_some, Option.isSome_some]
  · rfl

/-- CK_B ends the attempt with its one record, whichever of the three operations it selects (R129, R133). -/
theorem closing_step (hc : s.cfg.wf = true) (hs : s.sync = bodyAfter cls id lo hi (p ++ [ckA]))
    (hmax : le16 lo hi ≤ s.cfg.maxPayload) (hp : p.length = le16 lo hi) (x : Byte) :
    Completes (stepEvent (.byte x) s) s Sync.reset (closingRecord s.cfg cls id lo hi p ckA x) false := by
  have hlen : (p ++ [ckA]).length = le16 lo hi + 1 := by rw [List.length_append, hp]; rfl
  have hinv := stateInv_of_bodyAfter hc hs hmax (Nat.le_of_eq hlen)
  rw [bodyAfter_of_le (by omega), hlen, Nat.add_sub_cancel_left] at hs
  have hph : s.sync.phase = .readChecksum := congrArg Sync.phase hs
  have hcnt : s.sync.count = 1 := congrArg Sync.count hs
  have hexp : p.length = s.sync.expectedLen.toNat := by rw [hp, hs]; exact (append_toNat_eq_le16 lo hi).symm
  have hv := ckView_of_shape (s := s.sync) (y1 := sync1) (y2 := sync2) (cls := cls) (id := id) (lo := lo) (hi := hi)
    (ckA := ckA) (by rw [hs, List.append_assoc]) hexp
  by_cases hck : checksum s.cfg.ckMod ([cls, id, lo, hi] ++ p) = (ckA, x)
  · have hok := ChecksumFamily.verify_iff.2 hck
    rw [closingRecord, if_pos hck, validRecord]
    cases hl : usableLayout s.cfg cls id p.length with
    | none =>
      have hunk : known s.cfg cls id s.sync.expectedLen.toNat = false := by rw [known, ← hexp, hl]; rfl
      rw [stepEvent_of_selects (.ckOkUnknown hph hcnt hv hok hunk) hinv]
      exact ⟨_, execCkOkUnknown_next.2 ⟨⟨hph, hcnt⟩, _, hv, ⟨hok, hunk⟩, rfl⟩, rfl, rfl, rfl, rfl, rfl⟩
    | some l =>
      obtain ⟨fields, hf⟩ := decodeFields_of_usable hc hl
      have hkn : known s.cfg cls id s.sync.expectedLen.toNat = true := by rw [known, ← hexp, hl]; rfl
      rw [stepEvent_of_selects (.ckOkDecoded hph hcnt hv hok hkn) hinv]
      simp only [hf, Option.map_some]
      exact ⟨_, execCkOkDecoded_next.2 ⟨⟨hph, hcnt⟩, _, hv, hok, l, by rw [← hexp, hl], fields, hf, rfl⟩,
        rfl, rfl, rfl, rfl, rfl⟩
  · have hbad : verify s.cfg.ckMod ([cls, id, lo, hi] ++ p) ckA x = false :=
      Bool.eq_false_iff.2 (mt ChecksumFamily.verify_iff.1 hck)
    rw [closingRecord, if_neg hck, stepEvent_of_selects (.ckFail hph hcnt hv hbad) hinv]
    exact ⟨_, execCkFail_next.2 ⟨⟨hph, hcnt⟩, _, hv, hbad, rfl⟩, rfl, rfl, rfl, rfl, rfl⟩

/-! ## Runs put together -/

theorem runsTo_append {es fs : List Event} {os ps : List Outputs} (h : RunsTo s es t os) (h' : RunsTo t fs u ps) :
    RunsTo s (es ++ fs) u (os ++ ps) := by
  induction es generalizing s os with
  | nil =>
    obtain ⟨rfl, rfl⟩ := runsTo_nil.1 h
    exact h'
  | cons e es ih =>
    obtain ⟨v, qs, hstep, hrest, rfl⟩ := runsTo_cons.1 h
    exact runsTo_cons.2 ⟨v, qs ++ ps, hstep, ih hrest, rfl⟩

/-- A run presents one set of outputs per event. -/
theorem length_outputs {es : List Event} {os : List Outputs} (h : RunsTo s es t os) : os.length = es.length := by
  induction es generalizing s os with
  | nil =>
    obtain ⟨-, rfl⟩ := runsTo_nil.1 h
    rfl
  | cons e es ih =>
    obtain ⟨v, qs, -, hrest, rfl⟩ := runsTo_cons.1 h
    rw [List.length_cons, List.length_cons, ih hrest]

theorem emissions_append (os ps : List Outputs) : emissions (os ++ ps) = emissions os ++ emissions ps :=
  List.filterMap_append

theorem strobesFrom_append (k : Nat) (os ps : List Outputs) :
    strobesFrom k (os ++ ps) = strobesFrom k os ++ strobesFrom (k + os.length) ps := by
  induction os generalizing k with
  | nil => rfl
  | cons o os ih =>
    rw [List.cons_append, strobesFrom, strobesFrom, ih, List.length_cons, Nat.add_right_comm k 1, ← Nat.add_assoc]
    split <;> rfl

theorem feedBytes_append {os ps : List Outputs} (h : feedBytes s bs = .next (t, os))
    (h' : feedBytes t cs = .next (u, ps)) : feedBytes s (bs ++ cs) = .next (u, os ++ ps) := by
  rw [feedBytes, List.map_append]
  exact runsTo_append h h'

theorem runsSilently_append (h : RunsSilently s bs sy)
    (hr : ∀ u : State, u.cfg = s.cfg → u.sync = sy → RunsSilently u cs sy') : RunsSilently s (bs ++ cs) sy' := by
  obtain ⟨u, os, hrun, hus, huc, hos⟩ := h
  obtain ⟨t, ps, hrun', ht, htc, hps⟩ := hr u huc hus
  exact ⟨t, os ++ ps, feedBytes_append hrun hrun', ht, htc.trans huc, List.forall_mem_append.2 ⟨hos, hps⟩⟩

/-- After a silent run the outputs are those of the one step that ends it. -/
theorem outputs_of_runsSilently_then_step (h : RunsSilently s bs sy)
    (hlast : ∀ u : State, u.cfg = s.cfg → u.sync = sy → Completes (stepEvent (.byte x) u) u sy' em diag) :
    ∃ t os, feedBytes s (bs ++ [x]) = .next (t, os) ∧ emissions os = em.toList ∧
      os.getLast?.bind Outputs.emission = em ∧ strobes os = (if diag then [bs.length] else []) ∧ t.sync = sy' := by
  obtain ⟨u, os, hrun, hus, huc, hos⟩ := h
  obtain ⟨t, hstep, ht, -, -, rfl, rfl⟩ := hlast u huc hus
  have hlen : os.length = bs.length := (length_outputs hrun).trans (List.length_map _)
  refine ⟨t, os ++ [t.out], feedBytes_append hrun (runsTo_cons.2 ⟨t, [], hstep, runsTo_nil.2 ⟨rfl, rfl⟩, rfl⟩), ?_, ?_,
    ?_, ht⟩
  · rw [emissions_append, emissions_of_silent hos]
    cases hem : t.out.emission <;> simp [emissions, hem]
  · rw [List.getLast?_concat, Option.bind_some]
  · rw [strobes, strobesFrom_append, strobesFrom_of_silent hos, hlen, Nat.zero_add]
    rfl

/-! ## The attempt -/

theorem runsSilently_header (hc : s.cfg.wf = true) (hs : s.sync = headerStarted) (cls id lo : Byte) :
    RunsSilently s [cls, id, lo] (headerAfter [cls, id, lo]) := by
  refine .cons (header_step (bs := []) hc hs (by decide) cls) fun u huc hus => ?_
  rw [← huc] at hc
  refine .cons (header_step hc hus (by simp) id) fun v hvc hvs => ?_
  rw [← hvc] at hc
  exact .cons (header_step hc hvs (by simp) lo) fun w _ hws => hws ▸ RunsSilently.nil w

/-- Up to CK_A nothing is presented, by induction on the bytes to come. -/
theorem runsSilently_body (hc : s.cfg.wf = true) (hs : s.sync = bodyAfter cls id lo hi bs)
    (hmax : le16 lo hi ≤ s.cfg.maxPayload) (h : (bs ++ cs).length ≤ le16 lo hi + 1) :
    RunsSilently s cs (bodyAfter cls id lo hi (bs ++ cs)) := by
  induction cs generalizing s bs with
  | nil => rw [List.append_nil, ← hs]; exact RunsSilently.nil s
  | cons x cs ih =>
    rw [List.append_cons] at h ⊢
    have hb : bs.length ≤ le16 lo hi := by simp only [List.length_append, List.length_singleton] at h; omega
    exact .cons (body_step hc hs hmax hb x) fun u huc hus => ih (huc ▸ hc) hus (huc ▸ hmax) h

/-- An accepted attempt, header and body, presents nothing before its last byte (R117). -/
theorem runsSilently_attempt (hc : s.cfg.wf = true) (hs : s.sync = headerStarted)
    (hmax : le16 lo hi ≤ s.cfg.maxPayload) (h : bs.length ≤ le16 lo hi + 1) :
    RunsSilently s ([cls, id, lo, hi] ++ bs) (bodyAfter cls id lo hi bs) :=
  runsSilently_append (bs := [cls, id, lo]) (runsSilently_header hc hs cls id lo) fun u huc hus =>
    .cons (length_step (huc ▸ hc) hus (huc ▸ hmax)) fun v hvc hvs =>
      runsSilently_body (bs := []) (by rw [hvc, huc, hc]) hvs (by rw [hvc, huc]; exact hmax) h

/-- The whole attempt: one record, in the step of its last byte (R133). -/
theorem attempt_outputs (hc : s.cfg.wf = true) (hs : s.sync = headerStarted) (hmax : le16 lo hi ≤ s.cfg.maxPayload)
    (hp : p.length = le16 lo hi) (cls id ckA ckB : Byte) :
    ∃ t os, feedBytes s ([cls, id, lo, hi] ++ (p ++ [ckA, ckB])) = .next (t, os) ∧
      emissions os = (closingRecord s.cfg cls id lo hi p ckA ckB).toList ∧
      os.getLast?.bind Outputs.emission = closingRecord s.cfg cls id lo hi p ckA ckB ∧ strobes os = [] ∧
      t.sync = Sync.reset := by
  have hlen : (p ++ [ckA]).length ≤ le16 lo hi + 1 := by rw [List.length_append, hp]; rfl
  have hsplit : [cls, id, lo, hi] ++ (p ++ [ckA, ckB]) = [cls, id, lo, hi] ++ (p ++ [ckA]) ++ [ckB] := by simp
  rw [hsplit]
  refine outputs_of_runsSilently_then_step (diag := false) (runsSilently_attempt hc hs hmax hlen) fun u huc hus => ?_
  rw [← huc] at hc hmax ⊢
  exact closing_step hc hus hmax hp ckB

theorem oversize_outputs (hc : s.cfg.wf = true) (hs : s.sync = headerStarted) (hover : s.cfg.maxPayload < le16 lo hi)
    (cls id : Byte) :
    ∃ t os, feedBytes s [cls, id, lo, hi] = .next (t, os) ∧ emissions os = [] ∧ strobes os = [3] ∧ t.sync = Sync.reset := by
  obtain ⟨t, os, hrun, hem, -, hst, ht⟩ := outputs_of_runsSilently_then_step (runsSilently_header hc hs cls id lo)
    fun u huc hus => oversize_step (huc ▸ hc) hus (huc ▸ hover)
  exact ⟨t, os, hrun, hem, hst, ht⟩

theorem bodyAfter_phase (cls id lo hi : Byte) (bs : List Byte) :
    (bodyAfter cls id lo hi bs).phase = .readPayload ∨ (bodyAfter cls id lo hi bs).phase = .readChecksum := by
  obtain h | h := Nat.lt_or_ge bs.length (le16 lo hi)
  · exact .inl (by rw [bodyAfter_of_lt h])
  · exact .inr (by rw [bodyAfter_of_le h])

/-- A list of `n + 2` bytes is `n` bytes and a pair. -/
theorem exists_pair_of_length {n : Nat} (h : bs.length = n + 2) :
    ∃ (p : List Byte) (a b : Byte), bs = p ++ [a, b] ∧ p.length = n := by
  have hdrop : (bs.drop n).length = 2 := by rw [List.length_drop]; omega
  obtain ⟨a, b, hab⟩ := List.length_eq_two.1 hdrop
  exact ⟨bs.take n, a, b, by rw [← hab, List.take_append_drop], by rw [List.length_take]; omega⟩

end

/-! ## The obligations -/

/-- Settles O11: under R25 in ReadHeader the fill index is 2 + count and L is 0. -/
theorem hdrAccStoresHeaderByte : Obligations.HdrAccStoresHeaderByte := by
  intro s x hw hp hc
  obtain ⟨-, -, hl, he, -⟩ := (Sync.wf_readHeader hp).1 hw
  have hexp : s.sync.expectedLen = 0 := BitVec.eq_of_toNat_eq he
  have hstep := hdrAcc_completes (x := x) hw hp hc
  rw [hexp] at hstep
  exact ⟨hstep, read_stored hl⟩

/-- Settles O12: the 16-bit value with lenHi above lenLo is the Lnew of R111. -/
theorem hdrLenStartsPayload : Obligations.HdrLenStartsPayload := by
  intro s cls id lo x hs hpos hmax
  rw [append_toNat_eq_le16] at hpos hmax
  have hstep := hdrLen_completes hs hpos hmax
  rwa [bodyAfter_of_lt (bs := []) hpos] at hstep

/-- Settles O14: the reset, the strobe and the missing record are those of `OversizePayload`. -/
theorem hdrOversizeDropsFrame : Obligations.HdrOversizeDropsFrame := by
  intro s cls id lo x hs hover
  rw [append_toNat_eq_le16] at hover
  exact hdrOversize_completes hs hover

/-- Settles O15: under R25 in ReadPayload the fill index is 6 + count. -/
theorem payAccStoresPayloadByte : Obligations.PayAccStoresPayloadByte := by
  intro s x hw hp hc
  obtain ⟨-, -, hl, -⟩ := (Sync.wf_readPayload hp).1 hw
  exact ⟨payAcc_completes hw hp hc, read_stored hl⟩

/-- Settles O16: with one byte to come the fill index 6 + count is 5 + L. -/
theorem payLastEntersReadChecksum : Obligations.PayLastEntersReadChecksum := by
  intro s x hw hp hc
  obtain ⟨-, -, hl, -⟩ := (Sync.wf_readPayload hp).1 hw
  exact ⟨payLast_completes hw hp hc, read_stored (by omega)⟩

/-- Settles O52: the oversize header ends at its fourth byte; any other opens a body that is silent up to CK_A and closes
with one record at CK_B. -/
theorem attemptTakesItsDeclaredBytes : Obligations.AttemptTakesItsDeclaredBytes := by
  intro s cls id lo hi bs hc hs
  rw [← MemoryFamily.le16_eq_add]
  split
  case isTrue hover => exact oversize_outputs hc hs hover cls id
  case isFalse hfits =>
    have hmax := Nat.le_of_not_lt hfits
    refine ⟨fun hlen => ?_, fun hlt => ?_⟩
    · obtain ⟨p, ckA, ckB, rfl, hp⟩ := exists_pair_of_length hlen
      obtain ⟨t, os, hrun, hem, hlast, hst, ht⟩ := attempt_outputs hc hs hmax hp cls id ckA ckB
      obtain ⟨em, hrec⟩ := Option.isSome_iff_exists.1 (closingRecord_isSome hc cls id lo hi p ckA ckB)
      rw [hrec] at hem hlast
      exact ⟨t, os, hrun, by rw [hem]; rfl, by rw [hlast]; rfl, hst, ht⟩
    · obtain ⟨t, os, hrun, ht, hem, hst⟩ := (runsSilently_attempt (cls := cls) (id := id) (bs := bs) hc hs hmax
        (Nat.le_of_lt_succ hlt)).outputs
      exact ⟨t, os, hrun, hem, hst, by rw [ht]; exact bodyAfter_phase cls id lo hi bs⟩

/-- Settles O13: the body of length 0 is at its checksum from the start. -/
theorem hdrLenZeroSkipsPayload : Obligations.HdrLenZeroSkipsPayload := fun _ _ _ => hdrLenZero_completes

end Sys2Proof.HeaderPayloadFamily
end

section
/-! Checksum and emission (43_checksum_emit.md): CK_A stored at index 6 + L (R120), and the three operations of the CK_B
step from what it reads of the buffer (R121 to R126). -/

namespace Sys2Proof.ChecksumEmitFamily

open Sys2Proof.Machine

/-! ## The end of an attempt -/

/-- Ending an attempt clears the elements and presents the record (R129, R146). -/
theorem completes_of_endAttempt {o : Host.Outcome State Fault Refusal} {s : State} {em : Option Emission}
    {oc : Option Condition} (h : o = .next (endAttempt em oc s)) :
    Completes o s Sync.reset em (Condition.strobe oc) :=
  ⟨_, h, endAttempt_sync s em oc, endAttempt_cfg s em oc, endAttempt_input s em oc, endAttempt_emission s em oc,
    endAttempt_diagOversize s em oc⟩

/-! ## The conditions of the CK_B step -/

theorem ckOk_iff {c : Cfg} {v : CkView} {x : Byte} :
    ckOk c v x = true ↔ checksum c.ckMod v.span = (v.ckA, x) :=
  ChecksumFamily.verify_iff

theorem usableLayout_of_fit {c : Cfg} {cls id : Byte} {n : Nat} {l : Layout} (hl : c.lookup cls id = some l)
    (hfit : ∀ f ∈ l, f.offset + f.width ≤ n) : usableLayout c cls id n = some l :=
  usableLayout_eq_some.2 ⟨hl, (minLen_le_iff l n).2 hfit⟩

/-- A key is unknown at a length exactly when every layout it has holds a field beyond that length (R124). -/
theorem known_eq_false_iff {c : Cfg} {cls id : Byte} {n : Nat} :
    known c cls id n = false ↔ ∀ l, c.lookup cls id = some l → ∃ f ∈ l, n < f.offset + f.width := by
  simp only [known, Option.isSome_eq_false_iff, Option.isNone_iff_eq_none, Option.eq_none_iff_forall_ne_some, ne_eq,
    usableLayout_eq_some, minLen_le_iff, not_and, not_forall, Nat.not_le, exists_prop]

/-! ## The elements with CK_A stored -/

section
variable {s : State} {cls id lo hi ckA : Byte} {p : List Byte} {len : Half}

/-- The elements when CK_B is the next byte: header, payload and CK_A are stored. -/
def ckAStored (cls id lo hi : Byte) (p : List Byte) (ckA : Byte) (len : Half) : Sync :=
  { phase := .readChecksum, buf := Memory.ofBytes ([sync1, sync2, cls, id, lo, hi] ++ p ++ [ckA]), expectedLen := len,
    count := 1 }

theorem phase_count_of_ckAStored (hs : s.sync = ckAStored cls id lo hi p ckA len) :
    s.sync.phase = .readChecksum ∧ s.sync.count = 1 := by
  rw [hs]; exact ⟨rfl, rfl⟩

/-- The received bytes that the CK_B step reads (R121). -/
theorem ckView_of_ckAStored (hs : s.sync = ckAStored cls id lo hi p ckA len) (hp : p.length = len.toNat) :
    ckView s.sync = some { cls := cls, id := id, span := [cls, id, lo, hi] ++ p, payload := p, ckA := ckA } :=
  ckView_of_shape (congrArg Sync.buf hs) (by rw [hs]; exact hp)

theorem expectedLen_of_ckAStored (hs : s.sync = ckAStored cls id lo hi p ckA len) (hp : p.length = len.toNat) :
    s.sync.expectedLen.toNat = p.length := by
  rw [hs]; exact hp.symm

end

/-! ## The obligations -/

/-- Settles O17: under R25 in ReadChecksum with count 0 the fill index is 6 + L, and the operation reads no byte. -/
theorem ckFirstStoresCkA : Obligations.CkFirstStoresCkA := by
  intro s x hw hp hc
  obtain ⟨-, -, hl, -⟩ := (Sync.wf_readChecksum hp).1 hw
  have hfill : (Memory.bytes s.sync.buf).length = 6 + s.sync.expectedLen.toNat := by rw [hl, hc]; rfl
  exact ⟨HeaderPayloadFamily.ckFirst_completes hw hp hc, HeaderPayloadFamily.read_stored hfill⟩

/-- Settles O18: VERIFY accepts no pair but the computed one, so `ck_ok` is false. -/
theorem ckFailEmitsChecksumError : Obligations.CkFailEmitsChecksumError := by
  intro s cls id lo hi ckA x p len hs hp hne
  exact completes_of_endAttempt (execCkFail_next.2
    ⟨phase_count_of_ckAStored hs, _, ckView_of_ckAStored hs hp, Bool.eq_false_iff.2 fun hok => hne (ckOk_iff.1 hok),
      raise_eq_endAttempt s _ _⟩)

/-- Settles O19: a layout that fits is usable, and each of its fields, legal in a well-formed `Cfg`, decodes. -/
theorem ckOkDecodedEmitsFields : Obligations.CkOkDecodedEmitsFields := by
  intro s cls id lo hi ckA x p len l hc hs hp hck hl hfit
  have huse := usableLayout_of_fit hl hfit
  rw [← expectedLen_of_ckAStored hs hp] at huse
  have hfields := decodeFields_of_fit (Cfg.lookup_fields_wf hc hl) hfit
  exact completes_of_endAttempt (execCkOkDecoded_next.2
    ⟨phase_count_of_ckAStored hs, _, ckView_of_ckAStored hs hp, ckOk_iff.2 hck, l, huse, _, hfields, rfl⟩)

/-- Settles O20: without a layout that fits the key is unknown, and the payload is presented as it was read. -/
theorem ckOkUnknownEmitsRawPayload : Obligations.CkOkUnknownEmitsRawPayload := by
  intro s cls id lo hi ckA x p len hs hp hck hnofit
  have hunk := known_eq_false_iff.2 hnofit
  rw [← expectedLen_of_ckAStored hs hp] at hunk
  exact completes_of_endAttempt (execCkOkUnknown_next.2
    ⟨phase_count_of_ckAStored hs, _, ckView_of_ckAStored hs hp, ⟨ckOk_iff.2 hck, hunk⟩, rfl⟩)

end Sys2Proof.ChecksumEmitFamily
end

section
/-! Step, stream and encode (44_step_stream_encode.md): every well-formed event is answered under R25 (R140), what each
operation presents (R143 to R145), runs with polls, calls and the host's list (R141, R142), streams without a sync pair
(R151), and frames, intact, oversize or corrupted, fed back as streams (R150 to R155). -/

namespace Sys2Proof.StreamFamily

open Sys2Proof.Machine Sys2Proof.StateFamily Sys2Proof.EncodingFamily Sys2Proof.SyncSearchFamily
  Sys2Proof.HeaderPayloadFamily

section
variable {c : Cfg} {s t u : State} {e : Event} {es rest : List Event} {os ps : List Outputs} {i : Instr} {x : Byte}
  {bs g p : List Byte} {cls id lo hi ckA ckB : Byte}

/-! ## A selected operation answers -/

theorem length_of_readN {m : Memory} {a n : Nat} (h : Memory.readN m a n = some bs) : bs.length = n := by
  induction n generalizing a bs with
  | zero => obtain rfl := Option.some.inj h; rfl
  | succ n ih =>
    rw [Memory.readN] at h
    split at h
    · next hrest =>
      obtain rfl := Option.some.inj h
      rw [List.length_cons, ih hrest]
    · cases h

/-- What the CK_B step reads: class and id at indices 2 and 3, and a payload of the declared length (R121). -/
theorem ckView_some {sy : Sync} {v : CkView} (h : ckView sy = some v) :
    Memory.read sy.buf 2 = some v.cls ∧ Memory.read sy.buf 3 = some v.id ∧ v.payload.length = sy.expectedLen.toNat := by
  rw [ckView] at h
  split at h
  · next hcls hid _ hpay _ =>
    obtain rfl := Option.some.inj h
    exact ⟨hcls, hid, length_of_readN hpay⟩
  · cases h

/-- Under the invariant the operation a byte selects has a next state: there is room for the byte, the header is in the
buffer, and a layout that fits decodes. -/
theorem exec_of_selects (h : Selects s x i) (hs : StateInv s) : ∃ t, exec i s = .next t := by
  obtain ⟨hc, hw⟩ := stateInv_iff.1 hs
  have hroom := append_of_wf hw
  cases h with
  | ss1Hit hp => exact ⟨_, execSs1Hit_next.2 ⟨hp, rfl⟩⟩
  | ss1Skip hp h1 => exact ⟨_, execSs1Skip_next.2 ⟨⟨hp, h1⟩, rfl⟩⟩
  | ss2Hit hp => exact ⟨_, execSs2Hit_next.2 ⟨hp, _, hroom _, rfl⟩⟩
  | ss2Restart hp => exact ⟨_, execSs2Restart_next.2 ⟨hp, rfl⟩⟩
  | ss2Miss hp h2 h1 => exact ⟨_, execSs2Miss_next.2 ⟨⟨⟨hp, h2⟩, h1⟩, rfl⟩⟩
  | hdrAcc hp hc => exact ⟨_, execHdrAcc_next.2 ⟨⟨hp, hc⟩, _, hroom _, rfl⟩⟩
  | hdrLen hp hc hn hpos hmax => exact ⟨_, execHdrLen_next.2 ⟨⟨hp, hc⟩, _, hn, ⟨hmax, hpos⟩, _, hroom _, rfl⟩⟩
  | hdrLenZero hp hc hn => exact ⟨_, execHdrLenZero_next.2 ⟨⟨hp, hc⟩, hn, _, hroom _, rfl⟩⟩
  | hdrOversize hp hcnt hn hover =>
    obtain ⟨hm, -, hl, -⟩ := (Sync.wf_readHeader hp).1 hw
    have hread : ∀ a < 5, ∃ b, Memory.read s.sync.buf a = some b := fun a ha =>
      ⟨_, (Memory.read_eq hm a).trans (List.getElem?_eq_getElem (by omega))⟩
    obtain ⟨cls, hcls⟩ := hread 2 (by decide)
    obtain ⟨id, hid⟩ := hread 3 (by decide)
    exact ⟨_, execHdrOversize_next.2 ⟨⟨hp, hcnt⟩, _, hn, hover, cls, id, hcls, hid, rfl⟩⟩
  | payAcc hp hc => exact ⟨_, execPayAcc_next.2 ⟨⟨hp, hc⟩, _, hroom _, rfl⟩⟩
  | payLast hp hc => exact ⟨_, execPayLast_next.2 ⟨⟨hp, hc⟩, _, hroom _, rfl⟩⟩
  | ckFirst hp hc => exact ⟨_, execCkFirst_next.2 ⟨⟨hp, hc⟩, _, hroom _, rfl⟩⟩
  | ckFail hp hc hv hk => exact ⟨_, execCkFail_next.2 ⟨⟨hp, hc⟩, _, hv, hk, rfl⟩⟩
  | ckOkDecoded hp hcnt hv hk hl =>
    obtain ⟨l, hl⟩ := Option.isSome_iff_exists.1 hl
    obtain ⟨-, -, hlen⟩ := ckView_some hv
    obtain ⟨fields, hf⟩ := decodeFields_of_usable hc (hlen ▸ hl)
    exact ⟨_, execCkOkDecoded_next.2 ⟨⟨hp, hcnt⟩, _, hv, hk, l, hl, fields, hf, rfl⟩⟩
  | ckOkUnknown hp hc hv hk hl => exact ⟨_, execCkOkUnknown_next.2 ⟨⟨hp, hc⟩, _, hv, ⟨hk, hl⟩, rfl⟩⟩

/-- A call in range has a next state, from any state. -/
theorem exec_of_call (f : FnCall) (h : f.instr.wellFormed = true) (s : State) : ∃ t, exec f.instr s = .next t := by
  cases f with
  | checksum bs => exact ⟨_, execChecksum_next.2 rfl⟩
  | verify bs a b => exact ⟨_, execVerify_next.2 rfl⟩
  | le16 lo hi => exact ⟨_, execLe16_next.2 rfl⟩
  | field p o w sg => exact ⟨_, execField_next.2 ⟨_, if_pos h, rfl⟩⟩
  | frame c d p => exact ⟨_, execFrame_next.2 ⟨of_decide_eq_true h, rfl⟩⟩

/-! ## The events -/

/-- A cycle with `rst` is RST whatever else the ports hold (R169, R191). -/
theorem decodeEvent_of_assertsRst (h : Event.assertsRst e = true) : decodeEvent s e = .ok .rst := by
  cases e with
  | cycle q => exact if_pos h
  | call f => cases h

theorem eq_byte_of_deliversByte (h : Event.deliversByte e = true) : ∃ x, e = .byte x := by
  cases e with
  | call f => cases h
  | cycle q =>
    obtain ⟨rst, valid, x⟩ := q
    simp only [Event.deliversByte, Bool.and_eq_true, Bool.not_eq_true'] at h
    obtain ⟨rfl, rfl⟩ := h
    exact ⟨x, rfl⟩

/-- What neither delivers a byte nor resets is a poll, which is IDLE, or a call (R141, log 13). -/
theorem decodeEvent_of_neither (hb : Event.deliversByte e = false) (hr : Event.assertsRst e = false) :
    decodeEvent s e = .ok .idle ∨ ∃ f, e = .call f := by
  cases e with
  | call f => exact .inr ⟨f, rfl⟩
  | cycle q =>
    obtain ⟨rst, valid, x⟩ := q
    obtain rfl : rst = false := hr
    obtain rfl : valid = false := by simpa only [Event.deliversByte, Bool.not_false, Bool.and_true] using hb
    exact .inl rfl

theorem exec_of_wellFormed_event (hs : StateInv s) (he : e.wellFormed = true) :
    ∃ i t, decodeEvent s e = .ok i ∧ exec i s = .next t := by
  cases hr : Event.assertsRst e with
  | true => exact ⟨.rst, _, decodeEvent_of_assertsRst hr, execRst_next.2 rfl⟩
  | false =>
    cases hb : Event.deliversByte e with
    | true =>
      obtain ⟨x, rfl⟩ := eq_byte_of_deliversByte hb
      obtain ⟨-, hw⟩ := stateInv_iff.1 hs
      obtain ⟨i, hi⟩ := exists_selects hw x
      obtain ⟨t, ht⟩ := exec_of_selects hi hs
      exact ⟨i, t, by rw [decodeEvent_byte, if_pos hw, hi.decodeByte_eq], ht⟩
    | false =>
      obtain hd | ⟨f, rfl⟩ := decodeEvent_of_neither (s := s) hb hr
      · exact ⟨.idle, _, hd, execIdle_next.2 rfl⟩
      · obtain ⟨t, ht⟩ := exec_of_call f he s
        exact ⟨f.instr, t, rfl, ht⟩

/-! ## What each operation presents -/

/-- The four operations that present a record or the strobe. -/
def presents : Instr → Bool
  | .hdrOversize _ | .ckFail _ | .ckOkDecoded _ | .ckOkUnknown _ => true
  | _ => false

/-- The outputs of a step from `s` to `t`: the strobe, one of the three records, or nothing (R143). -/
inductive Presents (s : State) : Instr → State → Prop
  | oversize (x cls id : Byte) (len : Half) :
      Presents s (.hdrOversize x) (raise (.oversizePayload cls id len) none s)
  | mismatch {v : CkView} (x : Byte) (expected actual : Byte × Byte) (hv : ckView s.sync = some v) :
      Presents s (.ckFail x) (raise .checksumMismatch (some (.checksumError v.cls v.id expected actual)) s)
  | decoded {v : CkView} (x : Byte) (fields : List (String × Int)) (hv : ckView s.sync = some v) :
      Presents s (.ckOkDecoded x) (endAttempt (some (.decodedMessage v.cls v.id fields)) none s)
  | unknown {v : CkView} (x : Byte) (hv : ckView s.sync = some v) :
      Presents s (.ckOkUnknown x)
        (endAttempt (some (.unknownMessage v.cls v.id v.payload)) (some .unknownMessageType) s)
  | nothing {i : Instr} {t : State} (hi : presents i = false) (ht : t.out.silent = true) : Presents s i t

theorem presents_nothing_of_stores (hi : Stores i x) (h : exec i s = .next t) : Presents s i t :=
  .nothing (by cases hi <;> rfl) (by rw [hi.out_eq_quiet h]; rfl)

theorem exec_presents (h : exec i s = .next t) : Presents s i t := by
  cases i with
  | ss1Hit => obtain ⟨-, rfl⟩ := execSs1Hit_next.1 h; exact .nothing rfl rfl
  | ss1Skip x => obtain ⟨-, rfl⟩ := execSs1Skip_next.1 h; exact .nothing rfl rfl
  | ss2Hit => exact presents_nothing_of_stores .ss2Hit h
  | ss2Restart => obtain ⟨-, rfl⟩ := execSs2Restart_next.1 h; exact .nothing rfl rfl
  | ss2Miss x => obtain ⟨-, rfl⟩ := execSs2Miss_next.1 h; exact .nothing rfl rfl
  | hdrAcc x => exact presents_nothing_of_stores (.hdrAcc x) h
  | hdrLen x => exact presents_nothing_of_stores (.hdrLen x) h
  | hdrLenZero => exact presents_nothing_of_stores .hdrLenZero h
  | hdrOversize x => obtain ⟨-, len, -, -, cls, id, -, -, rfl⟩ := execHdrOversize_next.1 h; exact .oversize x cls id _
  | payAcc x => exact presents_nothing_of_stores (.payAcc x) h
  | payLast x => exact presents_nothing_of_stores (.payLast x) h
  | ckFirst x => exact presents_nothing_of_stores (.ckFirst x) h
  | ckFail x => obtain ⟨-, v, hv, -, rfl⟩ := execCkFail_next.1 h; exact .mismatch x _ _ hv
  | ckOkDecoded x => obtain ⟨-, v, hv, -, l, -, fields, -, rfl⟩ := execCkOkDecoded_next.1 h; exact .decoded x fields hv
  | ckOkUnknown x => obtain ⟨-, v, hv, -, rfl⟩ := execCkOkUnknown_next.1 h; exact .unknown x hv
  | idle => obtain rfl := execIdle_next.1 h; exact .nothing rfl rfl
  | rst => obtain rfl := execRst_next.1 h; exact .nothing rfl rfl
  | checksum bs => obtain rfl := execChecksum_next.1 h; exact .nothing rfl rfl
  | verify bs a b => obtain rfl := execVerify_next.1 h; exact .nothing rfl rfl
  | le16 lo hi => obtain rfl := execLe16_next.1 h; exact .nothing rfl rfl
  | field p o w sg => obtain ⟨v, -, rfl⟩ := execField_next.1 h; exact .nothing rfl rfl
  | frame c d p => obtain ⟨-, rfl⟩ := execFrame_next.1 h; exact .nothing rfl rfl

/-- A record carries the class, id and length of the frame in the buffer (R34, R144). -/
theorem ports_of_endAttempt {v : CkView} {em : Emission} {oc : Option Condition} (hv : ckView s.sync = some v)
    (hcls : em.cls = v.cls) (hid : em.id = v.id) :
    outClass (endAttempt (some em) oc s) = Memory.read s.sync.buf 2 ∧
      outId (endAttempt (some em) oc s) = Memory.read s.sync.buf 3 ∧
      outLen (endAttempt (some em) oc s) = some s.sync.expectedLen := by
  obtain ⟨hrcls, hrid, -⟩ := ckView_some hv
  rw [hrcls, hrid, ← hcls, ← hid]
  exact ⟨rfl, rfl, rfl⟩

/-! ## Polls and calls -/

theorem stepEvent_idle (hc : s.cfg.wf = true) : stepEvent .idle s = exec .idle s := if_pos hc

theorem idle_completes (s : State) : Completes (exec .idle s) s s.sync none false :=
  completes_of_quietly (execIdle_next.2 rfl)

/-- Any number of polls is a run that changes no element and presents nothing (R141). -/
theorem runsTo_replicate_idle (hc : s.cfg.wf = true) (n : Nat) :
    ∃ t os, RunsTo s (List.replicate n .idle) t os ∧ t.sync = s.sync ∧ t.cfg = s.cfg ∧ ∀ o ∈ os, o.silent = true := by
  induction n generalizing s with
  | zero => exact ⟨s, [], runsTo_nil.2 ⟨rfl, rfl⟩, rfl, rfl, List.forall_mem_nil _⟩
  | succ n ih =>
    obtain ⟨u, hstep, hus, huc, -, hem, hdiag⟩ := idle_completes s
    obtain ⟨t, os, hrun, ht, htc, hos⟩ := ih (huc ▸ hc)
    exact ⟨t, u.out :: os, runsTo_cons.2 ⟨u, os, (stepEvent_idle hc).trans hstep, hrun, rfl⟩, ht.trans hus,
      htc.trans huc, List.forall_mem_cons.2 ⟨silent_iff.2 ⟨hem, hdiag⟩, hos⟩⟩

/-- A poll or a call keeps the elements and the configuration and emits nothing. -/
theorem stepEvent_of_neither (hb : Event.deliversByte e = false) (hr : Event.assertsRst e = false)
    (h : stepEvent e s = .next u) :
    u.sync = s.sync ∧ u.cfg = s.cfg ∧ u.out.emission = none := by
  obtain ⟨-, i, hd, hx⟩ := stepEvent_next.1 h
  have hkind : i = .idle ∨ ∃ f : FnCall, i = f.instr := by
    obtain hidle | ⟨f, rfl⟩ := decodeEvent_of_neither (s := s) hb hr
    · exact .inl (Except.ok.inj (hd.symm.trans hidle))
    · exact .inr ⟨f, (Except.ok.inj hd).symm⟩
  have hkeeps := nonStoringOperationsKeepTheElements s u i (by
    obtain rfl | ⟨f, rfl⟩ := hkind
    · exact .inr (.inl rfl)
    · cases f <;> simp [FnCall.instr]) hx
  obtain ⟨hsync, -, hcfg, -, hem, -⟩ := hkeeps
  exact ⟨hsync, hcfg, hem⟩

theorem emissions_cons_of_none {o : Outputs} (h : o.emission = none) (os : List Outputs) :
    emissions (o :: os) = emissions os :=
  List.filterMap_cons_none h

theorem emissions_cons_congr (o : Outputs) (h : emissions os = emissions ps) :
    emissions (o :: os) = emissions (o :: ps) := by
  change emissions ([o] ++ os) = emissions ([o] ++ ps)
  rw [emissions_append, emissions_append, h]

theorem byteOutputs_cons (e : Event) (es : List Event) (o : Outputs) (os : List Outputs) :
    byteOutputs (e :: es) (o :: os) = if Event.deliversByte e then o :: byteOutputs es os else byteOutputs es os := rfl

/-- The events that reach the elements: a byte or a reset. The others are polls and calls. -/
def reachesElements (e : Event) : Bool := Event.deliversByte e || Event.assertsRst e

/-- Without its polls and calls a run has the same end, outputs at the byte steps and emissions (R142), by induction on the
events: what a poll or a call leaves are the elements and the configuration, on which alone the rest of the run depends. -/
theorem runsTo_filter_reachesElements (h : RunsTo s es t os) :
    ∃ t' ps, RunsTo s (es.filter reachesElements) t' ps ∧ t'.sync = t.sync ∧
      byteOutputs es os = byteOutputs (es.filter reachesElements) ps ∧ emissions os = emissions ps := by
  induction es generalizing s os with
  | nil =>
    obtain ⟨rfl, rfl⟩ := runsTo_nil.1 h
    exact ⟨t, [], runsTo_nil.2 ⟨rfl, rfl⟩, rfl, rfl, rfl⟩
  | cons e es ih =>
    obtain ⟨u, os, hstep, hrest, rfl⟩ := runsTo_cons.1 h
    obtain ⟨t', ps, hrun, ht, hbytes, hem⟩ := ih hrest
    cases hreach : reachesElements e with
    | true =>
      rw [List.filter_cons_of_pos hreach]
      exact ⟨t', u.out :: ps, runsTo_cons.2 ⟨u, ps, hstep, hrun, rfl⟩, ht,
        by rw [byteOutputs_cons, byteOutputs_cons, hbytes], emissions_cons_congr _ hem⟩
    | false =>
      rw [List.filter_cons_of_neg (Bool.eq_false_iff.1 hreach)]
      obtain ⟨hb, hr⟩ := Bool.or_eq_false_iff.1 hreach
      obtain ⟨hus, huc, hnone⟩ := stepEvent_of_neither hb hr hstep
      obtain ⟨t'', hrun', ht', -⟩ := runsDependOnElementsAlone u s _ t' ps hus.symm huc.symm hrun
      exact ⟨t'', ps, hrun', ht'.trans ht, by rw [byteOutputs_cons, hb]; exact hbytes,
        (emissions_cons_of_none hnone os).trans hem⟩

/-! ## The host's list -/

theorem step_of_cons (h : s.input = e :: rest) : step s = stepEvent e { s with input := rest } := by
  obtain ⟨hnil, -⟩ | ⟨e', rest', hl, hf⟩ := fetch_cases s
  · rw [hnil] at h; cases h
  · obtain ⟨rfl, rfl⟩ := List.cons.inj (hl.symm.trans h)
    rw [step, hf]

theorem step_of_nil (h : s.input = []) : step s = stepEvent .idle s := by
  obtain ⟨-, hf⟩ | ⟨e, rest, hl, -⟩ := fetch_cases s
  · rw [step, hf]
  · rw [hl] at h; cases h

/-- The events still to come play no part in a step on one event (R26, log 1). -/
theorem stepEvent_with_input (h : stepEvent e s = .next t) (l : List Event) :
    stepEvent e { s with input := l } = .next { t with input := l } := by
  obtain ⟨hc, i, hd, hx⟩ := stepEvent_next.1 h
  refine stepEvent_next.2 ⟨hc, i, hd, ?_⟩
  rw [exec_next_of_same_elements hx l s.out, exec_keeps_cfg hx]

theorem core_run_succ (M : Host.Core) (n : Nat) {s t : M.State} (h : M.step s = .next t) :
    M.run (n + 1) s = M.run n t := by
  rw [Host.Core.run, h]

/-! ## Streams without a sync pair -/

/-- The elements after a stream without a sync pair: a last SYNC1 may still be followed by SYNC2 (R105, R151). -/
def seekAfter (bs : List Byte) : Sync := if bs.getLast? = some sync1 then Sync.syncStarted else Sync.reset

theorem seekAfter_concat (bs : List Byte) (x : Byte) :
    seekAfter (bs ++ [x]) = if x = sync1 then Sync.syncStarted else Sync.reset := by
  simp only [seekAfter, List.getLast?_concat, Option.some.injEq]

theorem seekAfter_wf (c : Cfg) (bs : List Byte) : (seekAfter bs).wf c = true := by
  unfold seekAfter
  split
  · exact syncStarted_wf c
  · exact reset_wf c

theorem seekAfter_phase (bs : List Byte) :
    (seekAfter bs).phase = if bs.getLast? = some sync1 then .seekSync2 else .seekSync1 :=
  apply_ite Sync.phase _ _ _

/-- One more byte makes a pair with the last byte or makes none. -/
theorem hasSyncPair_concat (bs : List Byte) (x : Byte) :
    hasSyncPair (bs ++ [x]) = (hasSyncPair bs || (bs.getLast? == some sync1 && x == sync2)) := by
  induction bs with
  | nil => rfl
  | cons a bs ih =>
    cases bs with
    | nil => simp [hasSyncPair]
    | cons b bs =>
      rw [List.cons_append, List.cons_append, hasSyncPair, ← List.cons_append, ih, hasSyncPair, List.getLast?_cons_cons,
        Bool.or_assoc]

/-- In a seek phase any byte but a SYNC2 after SYNC1 is silent, and what it leaves depends on that byte alone. -/
theorem seek_step (hc : s.cfg.wf = true) (hs : s.sync = seekAfter bs)
    (hx : ¬(bs.getLast? = some sync1 ∧ x = sync2)) :
    Completes (stepEvent (.byte x) s) s (seekAfter (bs ++ [x])) none false := by
  have hinv : StateInv s := stateInv_iff.2 ⟨hc, hs ▸ seekAfter_wf s.cfg bs⟩
  rw [seekAfter_concat]
  by_cases hlast : bs.getLast? = some sync1
  · have hp : s.sync.phase = .seekSync2 := by rw [hs, seekAfter_phase, if_pos hlast]
    have h2 : x ≠ sync2 := fun h => hx ⟨hlast, h⟩
    by_cases h1 : x = sync1
    · subst h1
      rw [if_pos rfl, stepEvent_of_selects (.ss2Restart hp) hinv]
      exact ss2Restart_completes hp
    · rw [if_neg h1, stepEvent_of_selects (.ss2Miss hp h2 h1) hinv]
      exact ss2Miss_completes hp h2 h1
  · rw [seekAfter, if_neg hlast] at hs
    have hp : s.sync.phase = .seekSync1 := congrArg Sync.phase hs
    by_cases h1 : x = sync1
    · subst h1
      rw [if_pos rfl, stepEvent_of_selects (.ss1Hit hp) hinv]
      exact ss1Hit_completes hp
    · rw [if_neg h1, stepEvent_of_selects (.ss1Skip hp h1) hinv, ← hs]
      exact ss1Skip_completes hp h1

/-- A stream without a sync pair is silent, by induction on it from its last byte (R151). -/
theorem runsSilently_of_no_pair (hc : s.cfg.wf = true) (hs : s.sync = Sync.reset) (hg : hasSyncPair g = false) :
    RunsSilently s g (seekAfter g) := by
  induction g using List.reverseRecOn with
  | nil =>
    have hseek : s.sync = seekAfter [] := hs
    rw [← hseek]
    exact RunsSilently.nil s
  | append_singleton g x ih =>
    rw [hasSyncPair_concat, Bool.or_eq_false_iff] at hg
    obtain ⟨hg, hx⟩ := hg
    refine runsSilently_append (ih hg) fun u huc hus => .cons (seek_step (huc ▸ hc) hus ?_) fun v _ hvs =>
      hvs ▸ RunsSilently.nil v
    rintro ⟨hlast, rfl⟩
    rw [hlast] at hx
    cases hx

/-- Whatever a stream without a sync pair ended in, SYNC1 and SYNC2 start a header after it (R100, R103, R155). -/
theorem runsSilently_sync_after (hc : s.cfg.wf = true) (hs : s.sync = Sync.reset) (hg : hasSyncPair g = false) :
    RunsSilently s (g ++ [sync1, sync2]) headerStarted :=
  runsSilently_append (runsSilently_of_no_pair hc hs hg) fun u huc hus =>
    .cons (seek_step (x := sync1) (huc ▸ hc) hus fun h => absurd h.2 (by decide)) fun v hvc hvs =>
      runsSilently_sync1_run (by rw [hvc, huc, hc]) (hvs.trans (seekAfter_concat g sync1)) 0

/-! ## Frames -/

/-- Every 16-bit length is assembled from two bytes (R64). -/
theorem exists_le16 {n : Nat} (h : n ≤ 65535) : ∃ lo hi : Byte, n = le16 lo hi := by
  refine ⟨BitVec.ofNat 8 n, BitVec.ofNat 8 (n / 256), ?_⟩
  rw [MemoryFamily.le16_eq_add, BitVec.toNat_ofNat, BitVec.toNat_ofNat]
  omega

theorem ofNat_and_le16 (lo hi : Byte) : BitVec.ofNat 8 (le16 lo hi &&& 0xFF) = lo := by
  apply BitVec.eq_of_toNat_eq
  rw [BitVec.toNat_ofNat, Nat.and_two_pow_sub_one_eq_mod _ 8, MemoryFamily.le16_eq_add]
  omega

theorem ofNat_shiftRight_le16 (lo hi : Byte) : BitVec.ofNat 8 (le16 lo hi >>> 8) = hi := by
  apply BitVec.eq_of_toNat_eq
  rw [BitVec.toNat_ofNat, Nat.shiftRight_eq_div_pow, MemoryFamily.le16_eq_add]
  omega

/-- The length bytes of a frame assemble to its payload's length (R60, R64). -/
theorem frameBody_eq (h : p.length = le16 lo hi) : frameBody cls id p = [cls, id, lo, hi] ++ p := by
  rw [frameBody, h, ofNat_and_le16, ofNat_shiftRight_le16]

theorem frameCk_eq (h : p.length = le16 lo hi) :
    frameCk cls id p ckA ckB = [sync1, sync2] ++ ([cls, id, lo, hi] ++ (p ++ [ckA])) ++ [ckB] := by
  rw [frameCk, frameBody_eq h]
  simp

/-- A run keeps the configuration (R29). -/
theorem runsTo_keeps_cfg (h : RunsTo s es t os) : t.cfg = s.cfg := by
  induction es generalizing s os with
  | nil =>
    obtain ⟨rfl, -⟩ := runsTo_nil.1 h
    rfl
  | cons e es ih =>
    obtain ⟨u, ps, hstep, hrest, -⟩ := runsTo_cons.1 h
    obtain ⟨-, i, -, hx⟩ := stepEvent_next.1 hstep
    rw [ih hrest, exec_keeps_cfg hx]

/-- Garbage without a sync pair, then a frame with any two checksum bytes: the one record is that of the closing step. -/
theorem frameCk_outputs (hc : s.cfg.wf = true) (hs : s.sync = Sync.reset) (hg : hasSyncPair g = false)
    (hmax : p.length ≤ s.cfg.maxPayload) (hlen : p.length = le16 lo hi) (cls id ckA ckB : Byte) :
    ∃ t os, feedBytes s (g ++ frameCk cls id p ckA ckB) = .next (t, os) ∧
      emissions os = (closingRecord s.cfg cls id lo hi p ckA ckB).toList ∧
      os.getLast?.bind Outputs.emission = closingRecord s.cfg cls id lo hi p ckA ckB ∧ strobes os = [] ∧
      t.sync = Sync.reset := by
  have hbody : (p ++ [ckA]).length ≤ le16 lo hi + 1 := by rw [List.length_append, hlen]; rfl
  have hsilent : RunsSilently s (g ++ [sync1, sync2] ++ ([cls, id, lo, hi] ++ (p ++ [ckA])))
      (bodyAfter cls id lo hi (p ++ [ckA])) :=
    runsSilently_append (runsSilently_sync_after hc hs hg) fun u huc hus =>
      runsSilently_attempt (huc ▸ hc) hus (by rw [huc, ← hlen]; exact hmax) hbody
  rw [frameCk_eq hlen, ← List.append_assoc, ← List.append_assoc]
  refine outputs_of_runsSilently_then_step (diag := false) hsilent fun u huc hus => ?_
  rw [← huc] at hc hmax ⊢
  exact closing_step hc hus (hlen ▸ hmax) hlen ckB

/-- A payload within MAX_PAYLOAD has two length bytes: MAX_PAYLOAD is a 16-bit value (R7). -/
theorem exists_length_bytes (hc : c.wf = true) (h : p.length ≤ c.maxPayload) : ∃ lo hi : Byte, p.length = le16 lo hi := by
  simp only [Cfg.wf, Bool.and_eq_true, decide_eq_true_eq] at hc
  exact exists_le16 (by omega)

/-- With its own checksum bytes a frame closes with the record of a valid one (R152). -/
theorem closingRecord_of_frame (h : p.length = le16 lo hi) {ck : Byte × Byte}
    (hck : ck = checksum c.ckMod (frameBody cls id p)) :
    closingRecord c cls id lo hi p ck.1 ck.2 = validRecord c cls id p :=
  if_pos (by rw [hck, frameBody_eq h])

/-- Garbage, then an intact frame: exactly its record, at the last byte (R152, R154, R155). -/
theorem frame_outputs (hc : s.cfg.wf = true) (hs : s.sync = Sync.reset) (hg : hasSyncPair g = false)
    (hmax : p.length ≤ s.cfg.maxPayload) (cls id : Byte) :
    ∃ t os em, feedBytes s (g ++ frame s.cfg.ckMod cls id p) = .next (t, os) ∧ validRecord s.cfg cls id p = some em ∧
      emissions os = [em] ∧ os.getLast?.bind Outputs.emission = some em ∧ strobes os = [] ∧ t.sync = Sync.reset := by
  obtain ⟨lo, hi, hlen⟩ := exists_length_bytes hc hmax
  have hclose := closingRecord_of_frame (c := s.cfg) (cls := cls) (id := id) hlen rfl
  obtain ⟨t, os, hrun, hem, hlast, hst, ht⟩ := frameCk_outputs hc hs hg hmax hlen cls id _ _
  obtain ⟨em, hrec⟩ := Option.isSome_iff_exists.1 (hclose ▸ closingRecord_isSome hc cls id lo hi p _ _)
  rw [hclose, hrec] at hem hlast
  exact ⟨t, os, em, hrun, hrec, hem, hlast, hst, ht⟩

theorem strobesFrom_eq_nil {k : Nat} : strobesFrom k os = [] ↔ ∀ o ∈ os, o.diagOversize = false := by
  induction os generalizing k with
  | nil => exact iff_of_true rfl (List.forall_mem_nil _)
  | cons o os ih =>
    rw [strobesFrom, List.forall_mem_cons]
    cases o.diagOversize with
    | false => simp [ih]
    | true => simp

/-- Two runs without a strobe join to one without. -/
theorem strobes_append_eq_nil (h : strobes os = []) (h' : strobes ps = []) : strobes (os ++ ps) = [] :=
  strobesFrom_eq_nil.2 (List.forall_mem_append.2 ⟨strobesFrom_eq_nil.1 h, strobesFrom_eq_nil.1 h'⟩)

/-- A stale pair over a replaced byte fails where the two bytes differ mod M (R96, R153). -/
theorem closingRecord_of_replaced {m : Nat} {q : List Byte} {v w : Byte} (hm : c.ckMod = m) (hpos : 0 < m)
    (hle : m ≤ 256) (hne : ¬v.toNat ≡ w.toNat [MOD m]) {ck : Byte × Byte}
    (hck : ck = checksum c.ckMod ([cls, id, lo, hi] ++ (p ++ [v] ++ q))) :
    closingRecord c cls id lo hi (p ++ [w] ++ q) ck.1 ck.2 =
      some (.checksumError cls id (checksum c.ckMod ([cls, id, lo, hi] ++ (p ++ [w] ++ q))) ck) := by
  subst hck hm
  refine if_neg fun h => hne ?_
  rw [← ChecksumFamily.checksum_fst_replace_iff hpos hle ([cls, id, lo, hi] ++ p) q v w]
  simpa only [List.append_assoc] using (congrArg Prod.fst h).symm

/-! ## Instances -/

theorem stepInstance_next {k : Nat} {sys sys' : List State} : stepInstance k sys = .next sys' ↔
    (sys[k]? = none ∧ sys' = sys) ∨ ∃ s t, sys[k]? = some s ∧ step s = .next t ∧ sys' = sys.set k t := by
  unfold stepInstance
  cases hk : sys[k]? with
  | none => simp [eq_comm]
  | some s => cases hstep : step s <;> simp [hstep, eq_comm]

end

/-! ## The obligations -/

/-- Settles O31: every event decodes to an operation that answers, and operations keep R25's table. -/
theorem stepAnswersEveryEvent : Obligations.StepAnswersEveryEvent := by
  intro s e hs he
  obtain ⟨i, t, hd, hx⟩ := exec_of_wellFormed_event hs he
  exact ⟨t, stepEvent_next.2 ⟨(stateInv_iff.1 hs).1, i, hd, hx⟩, exec_keeps_stateInv hx hs⟩

/-- Settles O21, the run by induction on the number of polls. -/
theorem idleChangesNothing : Obligations.IdleChangesNothing := by
  refine ⟨idle_completes, fun s n hc => ?_⟩
  obtain ⟨t, os, hrun, hts, htc, hos⟩ := runsTo_replicate_idle hc n
  exact ⟨t, os, hrun, hts, htc, emissions_of_silent hos, strobesFrom_of_silent hos 0⟩

/-- Settles O25: the two length bytes FRAME builds are `lo` and `hi`. -/
theorem frameDeliversItsBytes : Obligations.FrameDeliversItsBytes := by
  intro s cls id lo hi p hlen
  rw [← MemoryFamily.le16_eq_add] at hlen
  have hle : p.length ≤ 65535 := hlen ▸ Nat.le_of_lt_succ (le16_lt lo hi)
  have hnext := execFrame_next (cls := cls) (id := id) (s := s).2 ⟨hle, rfl⟩
  rw [frame, frameCk, frameBody_eq hlen] at hnext
  exact delivers_of_next hnext

/-- Settles O39: the strobe and the three records are each presented by one operation, which ends in RESET_STATE. -/
theorem outputsOfAStep : Obligations.OutputsOfAStep := by
  intro i s t h
  cases exec_presents h with
  | oversize => simp
  | mismatch => simp
  | decoded => simp
  | unknown => simp
  | nothing hi ht =>
    obtain ⟨hem, hdiag⟩ := silent_iff.1 ht
    rw [hem, hdiag]
    refine ⟨iff_of_false nofun ?_, iff_of_false nofun ?_, nofun, nofun⟩
    · rintro ⟨x, rfl⟩; cases hi
    · rintro ⟨x, rfl | rfl | rfl⟩ <;> cases hi

/-- Settles O40: a record's ports are those of the frame in the buffer, and no other operation presents one. -/
theorem portsOfAStep : Obligations.PortsOfAStep := by
  intro i s t h
  refine ⟨rfl, ?_⟩
  cases exec_presents h with
  | oversize => exact ⟨rfl, nofun⟩
  | mismatch x expected actual hv => exact ⟨rfl, fun _ => ports_of_endAttempt hv rfl rfl⟩
  | decoded x fields hv => exact ⟨rfl, fun _ => ports_of_endAttempt hv rfl rfl⟩
  | unknown x hv => exact ⟨rfl, fun _ => ports_of_endAttempt hv rfl rfl⟩
  | nothing hi ht =>
    obtain ⟨hem, -⟩ := silent_iff.1 ht
    rw [outKind, outValid, hem]
    refine ⟨?_, nofun⟩
    cases i with
    | ckFail | ckOkDecoded | ckOkUnknown => cases hi
    | _ => rfl

/-- Settles O44: a run is its first step and a run from there, so the outputs follow in order. -/
theorem runsCompose : Obligations.RunsCompose := fun _ _ _ _ _ _ _ => runsTo_append

/-- Settles O45: the filter keeps the events that reach the elements. -/
theorem insertedPollsChangeNothing : Obligations.InsertedPollsChangeNothing := fun _ _ _ _ =>
  runsTo_filter_reachesElements

/-- Settles O46, by induction on the events: each step of the host takes the first one of the list. -/
theorem hostRunIsTheRun : Obligations.HostRunIsTheRun := by
  intro s t es rest os hrun
  induction es generalizing s os with
  | nil =>
    obtain ⟨rfl, rfl⟩ := runsTo_nil.1 hrun
    rfl
  | cons e es ih =>
    obtain ⟨u, os, hstep, hrest, rfl⟩ := runsTo_cons.1 hrun
    have hcore : step { s with input := e :: es ++ rest } = .next { u with input := es ++ rest } :=
      (step_of_cons rfl).trans (stepEvent_with_input hstep _)
    exact (core_run_succ Sys2Proof.core es.length hcore).trans (ih _ _ hrest)

/-- Settles O47: the elements after a stream without a pair depend on its last byte alone. -/
theorem noSyncPairEmitsNothing : Obligations.NoSyncPairEmitsNothing := by
  intro s bs hc hs hbs
  obtain ⟨t, os, hrun, ht, hem, hst⟩ := (runsSilently_of_no_pair hc hs hbs).outputs
  exact ⟨t, os, hrun, hem, hst, by rw [ht]; exact seekAfter_phase bs, by rw [ht, seekAfter_wf]⟩

/-- Settles O48: the frame after no garbage. -/
theorem frameYieldsItsRecord : Obligations.FrameYieldsItsRecord :=
  fun _ cls id _ hc hs hmax => frame_outputs (g := []) hc hs rfl hmax cls id

/-- Settles O49: the sync pair and three header bytes are silent, and lenHi completes an oversize length. -/
theorem oversizeFrameStrobesAtSixthByte : Obligations.OversizeFrameStrobesAtSixthByte := by
  intro s cls id p hc hs hover hle
  obtain ⟨lo, hi, hlen⟩ := exists_le16 hle
  have hsix : (frame s.cfg.ckMod cls id p).take 6 = [sync1, sync2] ++ [cls, id, lo] ++ [hi] := by
    rw [frame, frameCk_eq hlen]
    rfl
  have hsilent : RunsSilently s ([sync1, sync2] ++ [cls, id, lo]) (headerAfter [cls, id, lo]) :=
    runsSilently_append (runsSilently_sync_pair hc hs 0) fun u huc hus =>
      runsSilently_header (huc ▸ hc) hus cls id lo
  obtain ⟨t, os, hrun, hem, -, hst, ht⟩ := outputs_of_runsSilently_then_step hsilent fun u huc hus =>
    oversize_step (x := hi) (huc ▸ hc) hus (by rw [huc, ← hlen]; exact hover)
  exact ⟨t, os, by rw [hsix, hrun], hem, hst, ht⟩

/-- Settles O50: the first frame ends in RESET_STATE, from where garbage and the second frame run. -/
theorem garbageBetweenFramesIsLossless : Obligations.GarbageBetweenFramesIsLossless := by
  intro s cls id cls' id' p q g hc hs hp hq hg
  obtain ⟨t, os, em, hrun, hrec, hem, -, hst, ht⟩ := frame_outputs (g := []) hc hs rfl hp cls id
  have htc : t.cfg = s.cfg := runsTo_keeps_cfg hrun
  rw [← htc] at hc hq
  obtain ⟨u, ps, fm, hrun', hrec', hem', -, hst', hu⟩ := frame_outputs hc ht hg hq cls' id'
  rw [htc] at hrun' hrec'
  rw [List.append_assoc]
  exact ⟨u, os ++ ps, em, fm, feedBytes_append hrun hrun', hrec, hrec', by rw [emissions_append, hem, hem']; rfl,
    strobes_append_eq_nil hst hst', hu⟩

/-- Settles O51: the two byte values differ mod M, so `a` of the received frame is not the stale CK_A. -/
theorem corruptedByteIsAChecksumError : Obligations.CorruptedByteIsAChecksumError := by
  intro s cls id v w p q hc hs hmax hne hmod ck
  have hres : ∃ m, s.cfg.ckMod = m ∧ 0 < m ∧ m ≤ 256 ∧ ¬v.toNat ≡ w.toNat [MOD m] := by
    obtain hm | ⟨hm, h0F, hF0⟩ := hmod
    · exact ⟨256, hm, by decide, by decide, fun h => hne (ChecksumFamily.byte_modEq_256 h)⟩
    · refine ⟨255, hm, by decide, by decide, fun h => ?_⟩
      obtain h | h | h := ChecksumFamily.byte_modEq_255 h
      · exact hne h
      · exact h0F h
      · exact hF0 h
  obtain ⟨m, hm, hpos, hle, hvw⟩ := hres
  have hlen (y : Byte) : (p ++ [y] ++ q).length = p.length + 1 + q.length := by
    rw [List.length_append, List.length_append, List.length_singleton]
  obtain ⟨lo, hi, hw⟩ := exists_length_bytes hc (p := p ++ [w] ++ q) (by rw [hlen]; exact hmax)
  have hv : (p ++ [v] ++ q).length = le16 lo hi := by rw [hlen, ← hlen w, hw]
  obtain ⟨t, os, hrun, hem, -, -, ht⟩ := frameCk_outputs (g := []) hc hs rfl (by rw [hlen]; exact hmax) hw cls id
    ck.1 ck.2
  rw [closingRecord_of_replaced hm hpos hle hvw (congrArg (checksum s.cfg.ckMod) (frameBody_eq hv)),
    ← frameBody_eq hw] at hem
  exact ⟨t, os, hrun, hem, ht⟩

/-- Settles O5: the decoder reads neither the list nor what was last presented. -/
theorem stepRunsDecodedInstruction : Obligations.StepRunsDecodedInstruction := by
  refine ⟨fun s e rest i hc hl hd => ?_, fun s hc hl => (step_of_nil hl).trans (stepEvent_idle hc)⟩
  have hd' : decodeEvent { s with input := rest } e = .ok i := hd
  rw [step_of_cons hl, stepEvent, if_pos hc, hd']

/-- Settles O37: a step operation has a word, and each of the others is what its event decodes to. -/
theorem wordlessInstructionsComeBack : Obligations.WordlessInstructionsComeBack := by
  intro s i he
  cases i with
  | idle | rst | checksum | verify | le16 | field | frame => rfl
  | _ => cases he

/-- Settles O60: a step replaces entry `k` of the list, or nothing where there is no such entry. -/
theorem instancesAreIndependent : Obligations.InstancesAreIndependent := by
  intro k sys sys' h
  obtain ⟨hk, rfl⟩ | ⟨s, t, hk, hstep, rfl⟩ := stepInstance_next.1 h
  · refine ⟨rfl, fun _ _ => rfl, fun s hs => ?_⟩
    rw [hk] at hs
    cases hs
  · obtain ⟨hlt, -⟩ := List.getElem?_eq_some_iff.1 hk
    refine ⟨List.length_set, fun j hj => List.getElem?_set_ne hj.symm, fun s' hs' => ?_⟩
    obtain rfl := Option.some.inj (hk.symm.trans hs')
    exact ⟨t, hstep, List.getElem?_set_self hlt⟩

end Sys2Proof.StreamFamily
end

section
/-! Conditions (60_exceptions.md): the code each operation raises (R161), and the fresh instance that the end of every
attempt leaves (R129, R170, R172). -/

namespace Sys2Proof.ExceptionsFamily

open Sys2Proof.Machine Sys2Proof.StateFamily

section
variable {i : Instr} {s t : State} {x : Byte}

/-- Storing a byte raises no condition (R161). -/
theorem code_of_stores (hi : Stores i x) (h : exec i s = .next t) : Condition.code t.out.condition = 0 := by
  rw [hi.out_eq_quiet h, quiet_condition]
  rfl

/-- The five operations that end a frame attempt do so by the one shared end, whatever they present (R129, R170). -/
theorem exec_ends_attempt
    (hi : i = .ss2Miss x ∨ i = .hdrOversize x ∨ i = .ckFail x ∨ i = .ckOkDecoded x ∨ i = .ckOkUnknown x)
    (h : exec i s = .next t) : ∃ em oc, t = endAttempt em oc s := by
  obtain rfl | rfl | rfl | rfl | rfl := hi
  · obtain ⟨-, ht⟩ := execSs2Miss_next.1 h; exact ⟨_, _, ht⟩
  · obtain ⟨-, _, -, -, _, _, -, -, ht⟩ := execHdrOversize_next.1 h; exact ⟨_, _, ht⟩
  · obtain ⟨-, _, -, -, ht⟩ := execCkFail_next.1 h; exact ⟨_, _, ht⟩
  · obtain ⟨-, _, -, -, _, -, _, -, ht⟩ := execCkOkDecoded_next.1 h; exact ⟨_, _, ht⟩
  · obtain ⟨-, _, -, -, ht⟩ := execCkOkUnknown_next.1 h; exact ⟨_, _, ht⟩

/-- From RESET_STATE every run is the run of an instance just created with the same configuration (R172). -/
theorem runsTo_of_reset {es : List Event} {u : State} {os : List Outputs} (hs : t.sync = Sync.reset)
    (hrun : RunsTo (State.resetWith t.cfg) es u os) : ∃ u', RunsTo t es u' os ∧ u'.sync = u.sync := by
  obtain ⟨u', hrun', hu, -⟩ := runsDependOnElementsAlone (State.resetWith t.cfg) t es u os hs rfl hrun
  exact ⟨u', hrun', hu⟩

end

/-! ## The obligations -/

/-- Settles O41: the last step's outputs hold the condition the operation took or noted, and none where it ended
quietly, delivered a value or decoded a known message. -/
theorem conditionCodesRaised : Obligations.ConditionCodesRaised := by
  intro i s t h
  cases i with
  | ss1Hit => obtain ⟨-, rfl⟩ := execSs1Hit_next.1 h; rfl
  | ss1Skip x => obtain ⟨-, rfl⟩ := execSs1Skip_next.1 h; rfl
  | ss2Hit => exact code_of_stores .ss2Hit h
  | ss2Restart => obtain ⟨-, rfl⟩ := execSs2Restart_next.1 h; rfl
  | ss2Miss x => obtain ⟨-, rfl⟩ := execSs2Miss_next.1 h; rfl
  | hdrAcc x => exact code_of_stores (.hdrAcc x) h
  | hdrLen x => exact code_of_stores (.hdrLen x) h
  | hdrLenZero => exact code_of_stores .hdrLenZero h
  | hdrOversize x => obtain ⟨-, _, -, -, _, _, -, -, rfl⟩ := execHdrOversize_next.1 h; rfl
  | payAcc x => exact code_of_stores (.payAcc x) h
  | payLast x => exact code_of_stores (.payLast x) h
  | ckFirst x => exact code_of_stores (.ckFirst x) h
  | ckFail x => obtain ⟨-, _, -, -, rfl⟩ := execCkFail_next.1 h; rfl
  | ckOkDecoded x => obtain ⟨-, _, -, -, _, -, _, -, rfl⟩ := execCkOkDecoded_next.1 h; rfl
  | ckOkUnknown x => obtain ⟨-, _, -, -, rfl⟩ := execCkOkUnknown_next.1 h; rfl
  | idle => obtain rfl := execIdle_next.1 h; rfl
  | rst => obtain rfl := execRst_next.1 h; rfl
  | checksum bs => obtain rfl := execChecksum_next.1 h; rfl
  | verify bs a b => obtain rfl := execVerify_next.1 h; rfl
  | le16 lo hi => obtain rfl := execLe16_next.1 h; rfl
  | field p o w sg => obtain ⟨_, -, rfl⟩ := execField_next.1 h; rfl
  | frame c d p => obtain ⟨-, rfl⟩ := execFrame_next.1 h; rfl

/-- Settles O43: the shared end leaves RESET_STATE under the same configuration, and a run depends on those alone. -/
theorem freshAfterEveryEnd : Obligations.FreshAfterEveryEnd := by
  intro s t e i x hd hi hstep
  obtain ⟨-, j, hd', hx⟩ := stepEvent_next.1 hstep
  obtain rfl : i = j := Except.ok.inj (hd.symm.trans hd')
  obtain ⟨em, oc, rfl⟩ := exec_ends_attempt hi hx
  exact ⟨endAttempt_sync s em oc, fun es u os => runsTo_of_reset (endAttempt_sync s em oc)⟩

end Sys2Proof.ExceptionsFamily
end

section
/-! Reset (70_reset_and_hazards.md): RST from any state, and its priority over a byte of the same cycle (R169, R191). -/

namespace Sys2Proof.ResetFamily

open Sys2Proof.Machine Sys2Proof.SyncSearchFamily Sys2Proof.StreamFamily

theorem rst_completes (s : State) : Completes (exec .rst s) s Sync.reset none false :=
  completes_of_quietly (execRst_next.2 rfl)

/-- The priority of `rst` is the decoder's; the step adds R7's check alone. -/
theorem stepEvent_of_assertsRst {e : Event} {s : State} (hc : s.cfg.wf = true) (hr : Event.assertsRst e = true) :
    stepEvent e s = exec .rst s := by
  rw [stepEvent, if_pos hc, decodeEvent_of_assertsRst hr]

/-- Settles O22: RST reads nothing of the state, and asserting `rst` decides the operation of the cycle. -/
theorem rstFromEveryState : Obligations.RstFromEveryState := fun s _ _ =>
  ⟨rst_completes s, fun hc => stepEvent_of_assertsRst hc rfl⟩

end Sys2Proof.ResetFamily
end
